-- ==== Sys2Proof/Word.lean ====
section
/-! DEFINITION. The two word types of the block (10_state.md R15). -/

namespace Sys2Proof

/-- Eight bits, unsigned: one byte of a line or of a message (R15). -/
abbrev Byte := BitVec 8

/-- Four bits, unsigned: the unit one hex digit encodes (R15). -/
abbrev Nibble := BitVec 4

/-- The 32-bit carrier of an identifier (R17, decision D2). -/
abbrev IdWord := BitVec 32

end Sys2Proof
end

