-- ==== Sys2Proof/Syntax.lean ====
section
/-! DEFINITION. The values that cross the block's boundary (10_state.md R16 to R18, 60_exceptions.md R129), what a call
hands the block (`CallImage`), and `Instr`: one constructor per row of spec/opcode_table.json. -/

namespace Sys2Proof

/-- R16: exactly two values. -/
inductive FrameKind where
  | data
  | remote
deriving DecidableEq, Repr

/-- R16: exactly two values. -/
inductive IdKind where
  | standard
  | extended
deriving DecidableEq, Repr

/-- The eight-byte data carrier of a frame (decision D19). -/
abbrev DataField := Vector Byte 8

/-- R17, with the carriers of decision D2: they are wider than the invariants, so an ill-formed frame can be presented.
The bytes of `data` at index `dlc` and beyond are ignored by ENCODE and driven to 0 by DECODE (D19). -/
structure CanFrame where
  frameKind : FrameKind
  idKind : IdKind
  id : IdWord
  dlc : Nibble
  data : DataField
deriving DecidableEq, Repr

/-- R18: "a closed set of variants", exactly eight. -/
inductive Command where
  | opened
  | closed
  | setBitrate (index : Nibble)
  | setSilentMode (on : Bool)
  | setAutoRetransmit (on : Bool)
  | queryVersion
  | queryErrorRegister
  | transmit (frame : CanFrame)
deriving DecidableEq, Repr

/-- R129: the closed taxonomy of six kinds. An error carries nothing else (R130). -/
inductive ErrorKind where
  | invalidCharacter
  | unknownCommand
  | invalidBitrate
  | invalidDlc
  | truncatedInput
  | identifierOutOfRange
deriving DecidableEq, Repr

/-- `Result T` of 00_scope.md section 4: success with a value, or one error kind (R22). -/
inductive Result (α : Type) where
  | ok (value : α)
  | err (kind : ErrorKind)
deriving DecidableEq, Repr

/-- What one call hands the block: the operand of NIB2HEX, of HEX2NIB, of ENCODE, or the line of DECODE (R3). It is the
"encoded instruction" of this hardware: R45, "The \"instruction\" of a call is the line itself". -/
inductive CallImage where
  | nibble (value : Nibble)
  | char (byte : Byte)
  | frame (frame : CanFrame)
  | line (bytes : List Byte)
deriving DecidableEq, Repr

/-- One constructor per row of spec/opcode_table.json. The operand `body` of the thirteen DECODE rows is the converted
body `body[0..L-1]` (R92), surplus included; the operands of the four ENCODE rows are the fields of the frame that its
form leaves open (R80). The rows of HEX2NIB and NIB2HEX have no operand: each is one input value. -/
inductive Instr where
  /-- DECODE row `O` (R100). -/
  | openO (body : List Nibble)
  /-- DECODE row `C` (R101). -/
  | closeC (body : List Nibble)
  /-- DECODE row `S` (R102). -/
  | setBitrateS (body : List Nibble)
  /-- DECODE row `M` (R103). -/
  | silentUpperM (body : List Nibble)
  /-- DECODE row `m` (R104). -/
  | silentLowerM (body : List Nibble)
  /-- DECODE row `A` (R105). -/
  | autoUpperA (body : List Nibble)
  /-- DECODE row `a` (R106). -/
  | autoLowerA (body : List Nibble)
  /-- DECODE row `V` (R107). -/
  | versionV (body : List Nibble)
  /-- DECODE row `E` (R108). -/
  | errorE (body : List Nibble)
  /-- DECODE row `t` (R116). -/
  | txStdData (body : List Nibble)
  /-- DECODE row `T` (R117). -/
  | txExtData (body : List Nibble)
  /-- DECODE row `r` (R118). -/
  | txStdRemote (body : List Nibble)
  /-- DECODE row `R` (R119). -/
  | txExtRemote (body : List Nibble)
  /-- ENCODE row `ENC.t` (R81). -/
  | encStdData (id : IdWord) (dlc : Nibble) (data : DataField)
  /-- ENCODE row `ENC.T` (R82). -/
  | encExtData (id : IdWord) (dlc : Nibble) (data : DataField)
  /-- ENCODE row `ENC.r` (R83). -/
  | encStdRemote (id : IdWord) (dlc : Nibble) (data : DataField)
  /-- ENCODE row `ENC.R` (R84). -/
  | encExtRemote (id : IdWord) (dlc : Nibble) (data : DataField)
  -- HEX2NIB (R66): one constructor per accepted byte.
  | hexDigit0
  | hexDigit1
  | hexDigit2
  | hexDigit3
  | hexDigit4
  | hexDigit5
  | hexDigit6
  | hexDigit7
  | hexDigit8
  | hexDigit9
  | hexUpperA
  | hexUpperB
  | hexUpperC
  | hexUpperD
  | hexUpperE
  | hexUpperF
  | hexLowerA
  | hexLowerB
  | hexLowerC
  | hexLowerD
  | hexLowerE
  | hexLowerF
  -- NIB2HEX (R64): one constructor per nibble.
  | nibble0
  | nibble1
  | nibble2
  | nibble3
  | nibble4
  | nibble5
  | nibble6
  | nibble7
  | nibble8
  | nibble9
  | nibble10
  | nibble11
  | nibble12
  | nibble13
  | nibble14
  | nibble15
deriving DecidableEq, Repr

end Sys2Proof
end

