-- ==== Sys2Proof/Machine/Operands.lean ====
section
/-! DEFINITION. Every operand form and all the arithmetic of the block: character codes (30_encoding.md R47), the two
nibble conversions (40_hex_nibble_codec.md R64, R66), identifier, DLC and data fields (R53 to R57), and the text of a
frame (41_frame_encoder.md R74 to R78). The block has no other arithmetic (R57). -/

namespace Sys2Proof.Machine

/-! ## Character codes (R47; US-ASCII, log 13) -/

def cr : Byte := 0x0D
def charO : Byte := 0x4F
def charC : Byte := 0x43
def charS : Byte := 0x53
def charUpperM : Byte := 0x4D
def charLowerM : Byte := 0x6D
def charUpperA : Byte := 0x41
def charLowerA : Byte := 0x61
def charV : Byte := 0x56
def charE : Byte := 0x45
def charLowerT : Byte := 0x74
def charUpperT : Byte := 0x54
def charLowerR : Byte := 0x72
def charUpperR : Byte := 0x52

/-- R59: the explicit table of type characters; no arithmetic on the code (R74). -/
def typeChar : FrameKind → IdKind → Byte
  | .data, .standard => charLowerT
  | .data, .extended => charUpperT
  | .remote, .standard => charLowerR
  | .remote, .extended => charUpperR

/-! ## Constants of R10 -/

/-- `W`: 3 hex digits for Standard, 8 for Extended (R10, R110). -/
def idWidth : IdKind → Nat
  | .standard => 3
  | .extended => 8

/-- `ID_MAX`: 11 bits for Standard, 29 bits for Extended (R10, R110). -/
def idMax : IdKind → Nat
  | .standard => 0x7FF
  | .extended => 0x1FFFFFFF

/-- `DLC_MAX` (R10). -/
abbrev dlcMax : Nat := 8

/-- `OUT_MIN`: the least capacity of an output buffer (R10, R32). -/
abbrev outMin : Nat := 27

/-! ## The nibble conversions -/

/-- NIB2HEX (R64): '0'-'9' for 0 to 9, 'A'-'F' for 10 to 15. The operand has four bits, so R65's wider call cannot arise. -/
def nib2hex (v : Nibble) : Byte :=
  if v.toNat ≤ 9 then BitVec.ofNat 8 (0x30 + v.toNat) else BitVec.ofNat 8 (0x41 + (v.toNat - 10))

/-- HEX2NIB (R66), total on all 256 bytes (R67). -/
def hex2nib (c : Byte) : Result Nibble :=
  if 0x30 ≤ c.toNat ∧ c.toNat ≤ 0x39 then .ok (BitVec.ofNat 4 (c.toNat - 0x30))
  else if 0x41 ≤ c.toNat ∧ c.toNat ≤ 0x46 then .ok (BitVec.ofNat 4 (c.toNat - 0x41 + 10))
  else if 0x61 ≤ c.toNat ∧ c.toNat ≤ 0x66 then .ok (BitVec.ofNat 4 (c.toNat - 0x61 + 10))
  else .err .invalidCharacter

/-- Is the byte one of the 22 hex digit characters (R53)? -/
def isHexDigit (c : Byte) : Bool :=
  match hex2nib c with
  | .ok _ => true
  | .err _ => false

/-! ## Fields of the converted body -/

/-- The guarded nibble `body[k]` (R92). Every use stands behind a length check, so the default is never delivered. -/
def bodyAt (body : List Nibble) (k : Nat) : Nibble := body.getD k 0

/-- R54, R112: `acc = acc*16 + nibble`, most significant nibble first, exactly (no wrap can occur in 32 bits). -/
def assembleId (nibbles : List Nibble) : Nat :=
  nibbles.foldl (fun acc n => acc * 16 + n.toNat) 0

/-- R56, R115: `(high_nibble << 4) | low_nibble`. -/
def joinByte (hi lo : Nibble) : Byte := (hi.setWidth 8 <<< 4) ||| lo.setWidth 8

/-- R115: pairs in order, the first pair giving `data[0]`. -/
def pairBytes : List Nibble → List Byte
  | hi :: lo :: rest => joinByte hi lo :: pairBytes rest
  | _ => []

/-- The eight-byte carrier that holds `bytes` and is 0 beyond them (D19). -/
def dataField (bytes : List Byte) : DataField := Vector.ofFn fun j => bytes.getD j.val 0

/-- R57, R99: only the nibble value 1 is true. -/
def flagOf (n : Nibble) : Bool := n == 1

/-! ## Frames -/

/-- `data[0..dlc-1]`: the bytes of a frame that ENCODE reads (R73, R77). -/
def payload (F : CanFrame) : List Byte := F.data.toList.take F.dlc.toNat

/-- The first invariant of R17. -/
def idInRange (F : CanFrame) : Bool := decide (F.id.toNat ≤ idMax F.idKind)

/-- The second invariant of R17. The third, `len(data) = dlc`, cannot be broken at this boundary (R73). -/
def dlcInRange (F : CanFrame) : Bool := decide (F.dlc.toNat ≤ dlcMax)

/-- A well-formed frame (R17). -/
def frameWellFormed (F : CanFrame) : Bool := idInRange F && dlcInRange F

/-- The frame with the carrier bytes beyond `dlc` driven to 0, as DECODE delivers it (D19). -/
def canonicalFrame (F : CanFrame) : CanFrame := { F with data := dataField (payload F) }

/-- R17's equality of frames: the first four fields and the first `dlc` data bytes. -/
def sameFrame (F G : CanFrame) : Bool := decide (canonicalFrame F = canonicalFrame G)

/-! ## Text of a frame -/

/-- R75: `id[4k+3 : 4k]` for k from W-1 down to 0. -/
def idDigits : Nat → IdWord → List Nibble
  | 0, _ => []
  | k + 1, id => id.extractLsb' (4 * k) 4 :: idDigits k id

/-- R77: for each byte the high nibble, then the low nibble. -/
def dataDigits : List Byte → List Nibble
  | [] => []
  | b :: rest => b.extractLsb' 4 4 :: b.extractLsb' 0 4 :: dataDigits rest

/-- The digits between the type character and the terminator: identifier, DLC, data (R75 to R77). -/
def frameDigits (F : CanFrame) : List Nibble :=
  idDigits (idWidth F.idKind) F.id ++ F.dlc :: dataDigits (payload F)

/-- The whole message of a frame (R74 to R78), terminator included. -/
def message (F : CanFrame) : List Byte :=
  typeChar F.frameKind F.idKind :: (frameDigits F).map nib2hex ++ [cr]

/-- R79: the returned length `W + 2*dlc + 3`. -/
def messageLength (F : CanFrame) : Nat := idWidth F.idKind + 2 * F.dlc.toNat + 3

end Sys2Proof.Machine
end

