-- ==== Sys2Proof/WellFormed.lean ====
section
/-! DEFINITION. Which instructions are well-formed: the grammar of 30_encoding.md R63 for lines (less the bitrate bound,
which is a parameter of the machine and not of the syntax), and the invariants of 10_state.md R17 for frames. An
ill-formed instruction is still decoded and executed: it ends in the error kind the spec gives it. -/

namespace Sys2Proof

open Sys2Proof.Machine

/-- Format B carries its operand nibble (R49, R98). -/
def hasOperand (body : List Nibble) : Bool := !body.isEmpty

/-- Formats TS and TE carry every identifier digit (R111). -/
def hasIdentifier (idk : IdKind) (body : List Nibble) : Bool := decide (idWidth idk ≤ body.length)

/-- The identifier digits spell a value in range (R113). -/
def identifierFits (idk : IdKind) (body : List Nibble) : Bool :=
  decide (assembleId (body.take (idWidth idk)) ≤ idMax idk)

/-- The DLC digit is there (R114). -/
def hasDlc (idk : IdKind) (body : List Nibble) : Bool := decide (idWidth idk + 1 ≤ body.length)

/-- The DLC is at most 8 (R114). -/
def dlcFits (idk : IdKind) (body : List Nibble) : Bool :=
  decide ((bodyAt body (idWidth idk)).toNat ≤ dlcMax)

/-- Every data digit is there (R115). -/
def hasData (idk : IdKind) (body : List Nibble) : Bool :=
  decide (idWidth idk + 1 + 2 * (bodyAt body (idWidth idk)).toNat ≤ body.length)

/-- A transmit body that the grammar of R63 accepts. -/
def transmitBodyOk (idk : IdKind) (body : List Nibble) : Bool :=
  hasIdentifier idk body && identifierFits idk body && hasDlc idk body && dlcFits idk body && hasData idk body

/-- An identifier within the range of its kind (R17). -/
def encIdOk (idk : IdKind) (id : IdWord) : Bool := decide (id.toNat ≤ idMax idk)

/-- A data length of at most 8 (R17). -/
def encDlcOk (dlc : Nibble) : Bool := decide (dlc.toNat ≤ dlcMax)

def Instr.wellFormed : Instr → Bool
  | .openO _ | .closeC _ | .versionV _ | .errorE _ => true
  | .setBitrateS body => hasOperand body
  | .silentUpperM body => hasOperand body
  | .silentLowerM body => hasOperand body
  | .autoUpperA body => hasOperand body
  | .autoLowerA body => hasOperand body
  | .txStdData body => transmitBodyOk .standard body
  | .txExtData body => transmitBodyOk .extended body
  | .txStdRemote body => transmitBodyOk .standard body
  | .txExtRemote body => transmitBodyOk .extended body
  | .encStdData id dlc _ => encIdOk .standard id && encDlcOk dlc
  | .encExtData id dlc _ => encIdOk .extended id && encDlcOk dlc
  | .encStdRemote id dlc _ => encIdOk .standard id && encDlcOk dlc
  | .encExtRemote id dlc _ => encIdOk .extended id && encDlcOk dlc
  | .hexDigit0 | .hexDigit1 | .hexDigit2 | .hexDigit3 | .hexDigit4 | .hexDigit5 | .hexDigit6 | .hexDigit7 => true
  | .hexDigit8 | .hexDigit9 | .hexUpperA | .hexUpperB | .hexUpperC | .hexUpperD | .hexUpperE | .hexUpperF => true
  | .hexLowerA | .hexLowerB | .hexLowerC | .hexLowerD | .hexLowerE | .hexLowerF | .nibble0 | .nibble1 => true
  | .nibble2 | .nibble3 | .nibble4 | .nibble5 | .nibble6 | .nibble7 | .nibble8 | .nibble9 => true
  | .nibble10 | .nibble11 | .nibble12 | .nibble13 | .nibble14 | .nibble15 => true

end Sys2Proof
end

