-- ==== Sys2Proof/Decode.lean ====
section
/-! DEFINITION. The decoder, total on every call image, rejecting by name with an error kind, and the encoder after it.
Decoding a line is what DECODE does before dispatch: the empty line (R88), Phase 1 (R89), Phase 2 (R90), in that order
(R91); the per-command rules are the meanings (log 10). -/

namespace Sys2Proof

open Sys2Proof.Machine

/-! ## Lines: R88 to R91 -/

/-- Phase 1 (R89): the thirteen leading bytes of R58, matched on all eight bits; R93: each selects exactly one rule. -/
def leadingByte (c0 : Byte) : Option (List Nibble → Instr) :=
  if c0 = charO then some .openO
  else if c0 = charC then some .closeC
  else if c0 = charS then some .setBitrateS
  else if c0 = charUpperM then some .silentUpperM
  else if c0 = charLowerM then some .silentLowerM
  else if c0 = charUpperA then some .autoUpperA
  else if c0 = charLowerA then some .autoLowerA
  else if c0 = charV then some .versionV
  else if c0 = charE then some .errorE
  else if c0 = charLowerT then some .txStdData
  else if c0 = charUpperT then some .txExtData
  else if c0 = charLowerR then some .txStdRemote
  else if c0 = charUpperR then some .txExtRemote
  else none

/-- Phase 2 (R90): every body byte is converted, ascending, and the first that is no hex digit aborts the parse. -/
def hexBody : List Byte → Result (List Nibble)
  | [] => .ok []
  | c :: rest =>
    match hex2nib c with
    | .err k => .err k
    | .ok v =>
      match hexBody rest with
      | .err k => .err k
      | .ok vs => .ok (v :: vs)

/-- The common part of DECODE: R88, then R89, then R90 (R91, R139 steps 1 to 3). -/
def decodeLine : List Byte → Result Instr
  | [] => .err .truncatedInput
  | c0 :: rest =>
    match leadingByte c0 with
    | none => .err .unknownCommand
    | some mk =>
      match hexBody rest with
      | .err k => .err k
      | .ok body => .ok (mk body)

/-! ## The other three operations -/

/-- HEX2NIB rows: the 22 accepted bytes (R66); every other byte is InvalidCharacter (R67). -/
def decodeChar (c : Byte) : Result Instr :=
  match c.toNat with
  | 0x30 => .ok .hexDigit0
  | 0x31 => .ok .hexDigit1
  | 0x32 => .ok .hexDigit2
  | 0x33 => .ok .hexDigit3
  | 0x34 => .ok .hexDigit4
  | 0x35 => .ok .hexDigit5
  | 0x36 => .ok .hexDigit6
  | 0x37 => .ok .hexDigit7
  | 0x38 => .ok .hexDigit8
  | 0x39 => .ok .hexDigit9
  | 0x41 => .ok .hexUpperA
  | 0x42 => .ok .hexUpperB
  | 0x43 => .ok .hexUpperC
  | 0x44 => .ok .hexUpperD
  | 0x45 => .ok .hexUpperE
  | 0x46 => .ok .hexUpperF
  | 0x61 => .ok .hexLowerA
  | 0x62 => .ok .hexLowerB
  | 0x63 => .ok .hexLowerC
  | 0x64 => .ok .hexLowerD
  | 0x65 => .ok .hexLowerE
  | 0x66 => .ok .hexLowerF
  | _ => .err .invalidCharacter

/-- NIB2HEX rows: every nibble is one (R64). -/
def decodeNibble (v : Nibble) : Instr :=
  match v.toNat with
  | 0 => .nibble0
  | 1 => .nibble1
  | 2 => .nibble2
  | 3 => .nibble3
  | 4 => .nibble4
  | 5 => .nibble5
  | 6 => .nibble6
  | 7 => .nibble7
  | 8 => .nibble8
  | 9 => .nibble9
  | 10 => .nibble10
  | 11 => .nibble11
  | 12 => .nibble12
  | 13 => .nibble13
  | 14 => .nibble14
  | _ => .nibble15

/-- ENCODE rows: the form is selected by (frame_kind, id_kind) (R59). -/
def decodeFrame (F : CanFrame) : Instr :=
  match F.frameKind, F.idKind with
  | .data, .standard => .encStdData F.id F.dlc F.data
  | .data, .extended => .encExtData F.id F.dlc F.data
  | .remote, .standard => .encStdRemote F.id F.dlc F.data
  | .remote, .extended => .encExtRemote F.id F.dlc F.data

/-- The whole decoder. -/
def decode : CallImage → Result Instr
  | .nibble v => .ok (decodeNibble v)
  | .char c => decodeChar c
  | .frame F => .ok (decodeFrame F)
  | .line bytes => decodeLine bytes

/-! ## The encoder -/

/-- A line: the leading byte, then one digit per body nibble (R46). Letters are written uppercase; the decoder takes
both cases (R53). -/
def lineOf (c0 : Byte) (body : List Nibble) : CallImage := .line (c0 :: body.map nib2hex)

/-- The call image of an instruction. -/
def encode : Instr → CallImage
  | .openO body => lineOf charO body
  | .closeC body => lineOf charC body
  | .setBitrateS body => lineOf charS body
  | .silentUpperM body => lineOf charUpperM body
  | .silentLowerM body => lineOf charLowerM body
  | .autoUpperA body => lineOf charUpperA body
  | .autoLowerA body => lineOf charLowerA body
  | .versionV body => lineOf charV body
  | .errorE body => lineOf charE body
  | .txStdData body => lineOf charLowerT body
  | .txExtData body => lineOf charUpperT body
  | .txStdRemote body => lineOf charLowerR body
  | .txExtRemote body => lineOf charUpperR body
  | .encStdData id dlc data => .frame ⟨.data, .standard, id, dlc, data⟩
  | .encExtData id dlc data => .frame ⟨.data, .extended, id, dlc, data⟩
  | .encStdRemote id dlc data => .frame ⟨.remote, .standard, id, dlc, data⟩
  | .encExtRemote id dlc data => .frame ⟨.remote, .extended, id, dlc, data⟩
  | .hexDigit0 => .char 0x30
  | .hexDigit1 => .char 0x31
  | .hexDigit2 => .char 0x32
  | .hexDigit3 => .char 0x33
  | .hexDigit4 => .char 0x34
  | .hexDigit5 => .char 0x35
  | .hexDigit6 => .char 0x36
  | .hexDigit7 => .char 0x37
  | .hexDigit8 => .char 0x38
  | .hexDigit9 => .char 0x39
  | .hexUpperA => .char 0x41
  | .hexUpperB => .char 0x42
  | .hexUpperC => .char 0x43
  | .hexUpperD => .char 0x44
  | .hexUpperE => .char 0x45
  | .hexUpperF => .char 0x46
  | .hexLowerA => .char 0x61
  | .hexLowerB => .char 0x62
  | .hexLowerC => .char 0x63
  | .hexLowerD => .char 0x64
  | .hexLowerE => .char 0x65
  | .hexLowerF => .char 0x66
  | .nibble0 => .nibble 0
  | .nibble1 => .nibble 1
  | .nibble2 => .nibble 2
  | .nibble3 => .nibble 3
  | .nibble4 => .nibble 4
  | .nibble5 => .nibble 5
  | .nibble6 => .nibble 6
  | .nibble7 => .nibble 7
  | .nibble8 => .nibble 8
  | .nibble9 => .nibble 9
  | .nibble10 => .nibble 10
  | .nibble11 => .nibble 11
  | .nibble12 => .nibble 12
  | .nibble13 => .nibble 13
  | .nibble14 => .nibble 14
  | .nibble15 => .nibble 15

/-! ## Words numbered as spec/opcode_table.json numbers them

A row of the table is one byte (or one nibble), and rows of different operations carry the same byte: 0x74 is `t` and
ENC.t, 0x41 is `A` and HEX2NIB.A. The byte alone does not say which operation is called; log 11 gives the reading. -/

/-- The bytes of a table word, bit 0 the least significant bit of the first. -/
def tableBytes (nbits w : Nat) : List Byte :=
  (List.range ((nbits + 7) / 8)).map fun k => BitVec.ofNat 8 (w / 256 ^ k)

/-- The call a table word stands for: a nibble below 16 calls NIB2HEX; a line whose body bytes are all hex digits calls
DECODE when its leading byte is recognised; otherwise a hex digit character calls HEX2NIB; otherwise the bytes are a
line for DECODE, which answers by name (log 11). -/
def tableImage (nbits w : Nat) : CallImage :=
  match tableBytes nbits w with
  | [] => .line []
  | c0 :: rest =>
    if c0.toNat < 16 then .nibble (c0.setWidth 4)
    else if (leadingByte c0).isSome && rest.all isHexDigit then .line (c0 :: rest)
    else if isHexDigit c0 then .char c0
    else .line (c0 :: rest)

/-- The instruction the decoder reads from a table word, none where it refuses. -/
def decodeTableWord (nbits w : Nat) : Option Instr :=
  match decode (tableImage nbits w) with
  | .ok i => some i
  | .err _ => none

end Sys2Proof
end

