-- ==== Sys2Proof/Config.lean ====
section
/-! DEFINITION. What surrounds one block: the open parameters of 00_scope.md section 3, and the free values, which
nothing constrains. -/

namespace Sys2Proof

/-- The parameters the spec leaves OPEN (R7, R8, R9), constant while the machine runs (R23, R149). `LINE_MAX` (R11) is
the capacity of the line buffer at hand and stands with the buffer. -/
structure Params where
  /-- `CAN_BITRATE_INVALID` (R7, D14). -/
  canBitrateInvalid : Nat
  /-- `FW_VERSION_STRING` (R8, D15). -/
  fwVersionString : List Byte
  /-- `ERR_REG_BITS` (R9, D16). -/
  errRegBits : Nat
deriving DecidableEq, Repr

/-- Free value: what a call of DECODE leaves at a body index of LINE ("any value", R39, U13). Drawn by a counter of State (log 5). -/
opaque Config.freeByte : Nat → Byte

/-- Free value: what the error-register supplier would answer now ("any value" at each query, U7). Drawn by a counter of State (log 2). -/
opaque Config.freeErrorRegister : Nat → Nat

end Sys2Proof
end

