-- ==== Sys2Proof/Machine/State.lean ====
section
/-! DEFINITION. The state of the machine, plain data: the block's two spaces, the arguments and the result of a call, and
the inputs held constant during a call. The block itself keeps nothing between calls (R13); INVENTORY.md lists every field. -/

namespace Sys2Proof.Machine

/-- A byte space in canonical form: addresses strictly rising, no entry equal to what an unlisted address reads as. -/
abbrev Memory := List Host.Cell

/-- A caller-owned buffer (R25). -/
structure Buffer where
  /-- Its bytes by index. -/
  bytes : Memory
  /-- How many bytes it really holds: LINE_MAX for a line (R11, R155), at least 27 for an output (R32). -/
  capacity : Nat
  /-- The caller keeps the ownership rule of R43 for this buffer: no other agent touches it during the call (log 9). -/
  exclusive : Bool
deriving DecidableEq, Repr

/-- One call of one of the four operations (R3), with the buffer the caller provides for it (R150, R153). `none` means
the buffer that already stands in LINE or OUT: lawful for OUT, the hazard of R154 for LINE (log 20). -/
inductive Call where
  | nib2hex (value : Nibble)
  | hex2nib (byte : Byte)
  | encode (frame : CanFrame) (buffer : Option Buffer)
  | decode (buffer : Option Buffer) (length : Nat)
deriving DecidableEq, Repr

/-- The value of a successful call, by operation: NIB2HEX, HEX2NIB, ENCODE, DECODE. -/
inductive Value where
  | byte (b : Byte)
  | nibble (v : Nibble)
  | length (n : Nat)
  | command (c : Command)
deriving DecidableEq, Repr

structure State where
  /-- R7 to R9, R23. -/
  params : Params
  /-- The error-register supplier's value, sampled at each call (R9, R23, U7; log 2). -/
  errorRegister : Nat
  /-- The session: calls not yet made, first first (95_test_vectors.md section 3; log 3). -/
  calls : List Call
  /-- The LINE space (R28). -/
  line : Buffer
  /-- The `length` argument of the current DECODE call (R28). -/
  length : Nat
  /-- The OUT space (R32). -/
  out : Buffer
  /-- What the last call returned; nothing reads it but the caller (R22). -/
  result : Option (Result Value)
  /-- The model's own: how many free values have been drawn (log 5). -/
  freeCount : Nat
deriving DecidableEq, Repr

/-- There is no fault: "Nothing in this core is fatal" (R144), the block cannot hang (R159), and an index beyond `length`
is the result TruncatedInput (R30), not a stop. Safe: no claim can rest on a fault (log 23). -/
inductive Fault where
deriving DecidableEq, Repr

/-- Calls the spec gives no result and asks the model to refuse (93_implementation_defined.md section 1). -/
inductive Refusal where
  /-- Raised by exec for an instruction that has no meaning yet. Safe: the model stops. -/
  | notModelled (mnemonic : String)
  /-- Raised by the four ENCODE meanings when OUT holds fewer than 27 bytes (R32, R151, D22, U14). Safe: the model stops. -/
  | outBufferTooSmall
  /-- Raised by step for a DECODE call whose `length` exceeds what the buffer holds (R155, D23, U16). Safe: the model stops. -/
  | lengthBeyondBuffer
  /-- Raised by step (LINE) and by the four ENCODE meanings (OUT) when another agent shares or changes the buffer during
  the call (R43, R153, D24, U15). Safe: the model stops. -/
  | bufferShared
deriving DecidableEq, Repr

/-- After reset nothing is held and no call is pending (R27, R148). The parameters and the empty buffers are the
surroundings' and their values are the model's choice (logs 1, 2, 6, 7). -/
def State.reset : State where
  params := { canBitrateInvalid := 9, fwVersionString := [], errRegBits := 32 }
  errorRegister := 0
  calls := []
  line := { bytes := [], capacity := 0, exclusive := true }
  length := 0
  out := { bytes := [], capacity := 27, exclusive := true }
  result := none
  freeCount := 0

end Sys2Proof.Machine
end

