-- ==== Sys2Proof/Machine/Ops.lean ====
section
/-! DEFINITION. The named operations over memory and over the state: byte access (20_memory.md R30, R33, R35), ending a
call with a value or with an error kind (60_exceptions.md R141), and what surrounds a meaning in one step: starting a
call, fetching its image, and what a call of DECODE leaves in LINE (R39). -/

namespace Sys2Proof.Machine

/-! ## Memory -/

/-- What an unlisted address reads as (log 6). -/
def unlistedByte : Byte := 0

/-- `MemRead(space:i, 1)`. -/
def Memory.read : Memory → Nat → Byte
  | [], _ => unlistedByte
  | (k, v) :: rest, a => if k = a then v else Memory.read rest a

/-- `MemWrite(space:i, 1, b)`, keeping the canonical form. -/
def Memory.write : Memory → Nat → Byte → Memory
  | [], a, v => if v = unlistedByte then [] else [(a, v)]
  | (k, w) :: rest, a, v =>
    if a < k then (if v = unlistedByte then (k, w) :: rest else (a, v) :: (k, w) :: rest)
    else if a = k then (if v = unlistedByte then rest else (a, v) :: rest)
    else (k, w) :: Memory.write rest a v

/-- The canonical form: addresses strictly rising, no entry equal to the unlisted byte. -/
abbrev Memory.wf (m : Memory) : Prop :=
  m.Pairwise (fun x y => x.1 < y.1) ∧ ∀ c ∈ m, c.2 ≠ unlistedByte

/-- Reads indices `i`, `i+1`, ..., `n` bytes, one at a time (R35). -/
def Memory.readBytes (m : Memory) : Nat → Nat → List Byte
  | _, 0 => []
  | i, n + 1 => Memory.read m i :: Memory.readBytes m (i + 1) n

/-- Writes indices `i`, `i+1`, ... in ascending order without gaps, one byte each (R33). -/
def Memory.writeBytes : Memory → Nat → List Byte → Memory
  | m, _, [] => m
  | m, i, b :: rest => Memory.writeBytes (Memory.write m i b) (i + 1) rest

/-- A fresh, exclusively owned buffer that holds exactly these bytes. -/
def Buffer.ofBytes (bytes : List Byte) : Buffer :=
  { bytes := Memory.writeBytes [] 0 bytes, capacity := bytes.length, exclusive := true }

/-! ## The end of a call -/

/-- `return v` (00_scope.md section 4): the call ends with result `ok(v)`. -/
def State.returnValue (v : Value) (s : State) : State := { s with result := some (.ok v) }

/-- TAKING AN EXCEPTION: `raise K` ends the call at once with result `err(K)`; "Nothing is saved and nothing is changed:
there is no mode switch, no mask, no stack, no handler address" (R141). There is no return from it: the next call starts
from nothing (R142). -/
def State.raise (k : ErrorKind) (s : State) : State := { s with result := some (.err k) }

/-- The end of a DECODE call: the Command, or an error kind and no Command at all (R95). -/
def State.finish (r : Result Command) (s : State) : Host.Outcome State Fault Refusal :=
  match r with
  | .ok c => .next (s.returnValue (.command c))
  | .err k => .next (s.raise k)

/-! ## Around a meaning -/

/-- The start of every call: it leaves the session, and the error register is sampled anew (U7; log 2). -/
def State.startCall (rest : List Call) (s : State) : State :=
  { s with
    calls := rest
    errorRegister := Config.freeErrorRegister s.freeCount % 2 ^ s.params.errRegBits
    freeCount := s.freeCount + 1 }

/-- The caller's buffers become LINE and OUT of the call (R150). -/
def State.loadBuffers (c : Call) (s : State) : State :=
  match c with
  | .nib2hex _ => s
  | .hex2nib _ => s
  | .encode _ b => { s with out := b.getD s.out }
  | .decode b n => { s with line := b.getD s.line, length := n }

/-- The caller contract of LINE: exclusive ownership (R43), true length (R155). OUT's is checked by ENCODE. -/
def State.lineRefusal (c : Call) (s : State) : Option Refusal :=
  match c with
  | .decode _ _ =>
    if s.line.exclusive = false then some .bufferShared
    else if s.line.capacity < s.length then some .lengthBeyondBuffer
    else none
  | _ => none

/-- The call's image: for DECODE the bytes `line[0..length-1]`, read from LINE (R28, R30). -/
def State.fetchImage (c : Call) (s : State) : CallImage :=
  match c with
  | .nib2hex v => .nibble v
  | .hex2nib b => .char b
  | .encode F _ => .frame F
  | .decode _ _ => .line (Memory.readBytes s.line.bytes 0 s.length)

/-- `n` free bytes, from draw `k` on. -/
def freeBytes (k n : Nat) : List Byte := (List.range n).map fun j => Config.freeByte (k + j)

/-- What DECODE leaves in LINE (R39): indices 1 to length-1 hold free values, all else is unchanged. -/
def State.consumeLine (s : State) : State :=
  { s with
    line := { s.line with bytes := Memory.writeBytes s.line.bytes 1 (freeBytes s.freeCount (s.length - 1)) }
    freeCount := s.freeCount + (s.length - 1) }

/-- The state in which a call's meaning runs, after its image has been fetched. -/
def State.afterFetch (c : Call) (s : State) : State :=
  match c with
  | .decode _ _ => s.consumeLine
  | _ => s

/-- The state a call runs in before its image is fetched. -/
def State.begin (c : Call) (rest : List Call) (s : State) : State :=
  (s.startCall rest).loadBuffers c

/-- A call that presents an image with a fresh buffer of its own. -/
def Call.ofImage : CallImage → Call
  | .nibble v => .nib2hex v
  | .char c => .hex2nib c
  | .frame F => .encode F (some { bytes := [], capacity := outMin, exclusive := true })
  | .line bytes => .decode (some (Buffer.ofBytes bytes)) bytes.length

end Sys2Proof.Machine
end

