-- ==== Sys2Proof/Machine/Control.lean ====
section
/-! DEFINITION. The nine control commands (43_control_commands.md). Each runs after the common part of DECODE: `body` is
the converted body (R92). Nibbles beyond the operand are surplus and ignored (R94). None writes any state but the result;
what the peripheral does with a Command is the caller's business (R124). -/

namespace Sys2Proof.Machine

/-- R98: the one operand nibble, read only when it exists. -/
def operandNibble (body : List Nibble) : Result Nibble :=
  if body.length < 1 then .err .truncatedInput else .ok (bodyAt body 0)

/-- R102: the index is below the bound, or InvalidBitrate. -/
def bitrateCommand (bound : Nat) (body : List Nibble) : Result Command :=
  match operandNibble body with
  | .err k => .err k
  | .ok n => if bound ≤ n.toNat then .err .invalidBitrate else .ok (.setBitrate n)

/-- R99: a command whose argument is `body[0] == 1`. -/
def flagCommand (mk : Bool → Command) (body : List Nibble) : Result Command :=
  match operandNibble body with
  | .err k => .err k
  | .ok n => .ok (mk (flagOf n))

/-- `O`, Open (R100). -/
def execOpenO (_body : List Nibble) (s : State) : Host.Outcome State Fault Refusal := s.finish (.ok .opened)

/-- `C`, Close (R101). -/
def execCloseC (_body : List Nibble) (s : State) : Host.Outcome State Fault Refusal := s.finish (.ok .closed)

/-- `S`, SetBitrate (R102): the only reader of `CAN_BITRATE_INVALID` (R23). -/
def execSetBitrateS (body : List Nibble) (s : State) : Host.Outcome State Fault Refusal :=
  s.finish (bitrateCommand s.params.canBitrateInvalid body)

/-- `M`, SetSilentMode (R103). -/
def execSilentUpperM (body : List Nibble) (s : State) : Host.Outcome State Fault Refusal :=
  s.finish (flagCommand .setSilentMode body)

/-- `m`, SetSilentMode (R104). -/
def execSilentLowerM (body : List Nibble) (s : State) : Host.Outcome State Fault Refusal :=
  s.finish (flagCommand .setSilentMode body)

/-- `A`, SetAutoRetransmit (R105). -/
def execAutoUpperA (body : List Nibble) (s : State) : Host.Outcome State Fault Refusal :=
  s.finish (flagCommand .setAutoRetransmit body)

/-- `a`, SetAutoRetransmit (R106). -/
def execAutoLowerA (body : List Nibble) (s : State) : Host.Outcome State Fault Refusal :=
  s.finish (flagCommand .setAutoRetransmit body)

/-- `V`, QueryVersion (R107): the Command carries no argument; the reply is `versionReply` (R122), outside DECODE's result. -/
def execVersionV (_body : List Nibble) (s : State) : Host.Outcome State Fault Refusal := s.finish (.ok .queryVersion)

/-- `E`, QueryErrorRegister (R108): the error register is not read here; the reply is `errorReply` (R123). -/
def execErrorE (_body : List Nibble) (s : State) : Host.Outcome State Fault Refusal := s.finish (.ok .queryErrorRegister)

end Sys2Proof.Machine
end

