-- ==== Sys2Proof/Machine/Encoder.lean ====
section
/-! DEFINITION. The frame encoder and its four forms (41_frame_encoder.md). -/

namespace Sys2Proof.Machine

/-- R71 to R73, R140: the identifier first, then the DLC, both before any write. -/
def frameError (F : CanFrame) : Option ErrorKind :=
  if idInRange F = false then some .identifierOutOfRange
  else if dlcInRange F = false then some .invalidDlc
  else none

/-- Steps 1 to 5 (R74 to R78): the message is stored at `OUT:0`, ascending (R33), and its length is returned (R79). -/
def State.emitFrame (F : CanFrame) (s : State) : State :=
  { s with
    out := { s.out with bytes := Memory.writeBytes s.out.bytes 0 (message F) }
    result := some (.ok (.length (message F).length)) }

/-- `ENCODE(F, OUT)` (R80). A call whose OUT breaks the caller's contract is refused (R32, R43); a call whose frame is
ill-formed fails and writes no byte (R41). -/
def State.encodeFrame (F : CanFrame) (s : State) : Host.Outcome State Fault Refusal :=
  if s.out.exclusive = false then .refused .bufferShared
  else if s.out.capacity < outMin then .refused .outBufferTooSmall
  else
    match frameError F with
    | some k => .next (s.raise k)
    | none => .next (s.emitFrame F)

/-- `ENC.t` (R81). -/
def execEncStdData (id : IdWord) (dlc : Nibble) (data : DataField) (s : State) : Host.Outcome State Fault Refusal :=
  s.encodeFrame ⟨.data, .standard, id, dlc, data⟩

/-- `ENC.T` (R82). -/
def execEncExtData (id : IdWord) (dlc : Nibble) (data : DataField) (s : State) : Host.Outcome State Fault Refusal :=
  s.encodeFrame ⟨.data, .extended, id, dlc, data⟩

/-- `ENC.r` (R83): the data digits are emitted as for Data (R77). -/
def execEncStdRemote (id : IdWord) (dlc : Nibble) (data : DataField) (s : State) : Host.Outcome State Fault Refusal :=
  s.encodeFrame ⟨.remote, .standard, id, dlc, data⟩

/-- `ENC.R` (R84): the data digits are emitted as for Data (R77). -/
def execEncExtRemote (id : IdWord) (dlc : Nibble) (data : DataField) (s : State) : Host.Outcome State Fault Refusal :=
  s.encodeFrame ⟨.remote, .extended, id, dlc, data⟩

end Sys2Proof.Machine
end

