-- ==== Sys2Proof/Machine/Flags.lean ====
section
/-! DEFINITION. The block has no condition codes and no sticky flags: "The only status a call produces is the tag of its
result" (10_state.md R22). This file reads that tag, and gives the numeric codes the spec chose for a port-level carrier
(D2, D9, D10), on which no rule depends (log 18). -/

namespace Sys2Proof.Machine

/-- The status of the last call: did it succeed? (R22) -/
def State.succeeded (s : State) : Bool :=
  match s.result with
  | some (.ok _) => true
  | _ => false

/-- R131 (D9): 3 bits, in the order of the taxonomy; codes 6 and 7 are never produced. -/
def errorCode : ErrorKind → BitVec 3
  | .invalidCharacter => 0
  | .unknownCommand => 1
  | .invalidBitrate => 2
  | .invalidDlc => 3
  | .truncatedInput => 4
  | .identifierOutOfRange => 5

/-- R18 (D10): tags 0 to 7 in the order of the table. -/
def commandTag : Command → BitVec 3
  | .opened => 0
  | .closed => 1
  | .setBitrate _ => 2
  | .setSilentMode _ => 3
  | .setAutoRetransmit _ => 4
  | .queryVersion => 5
  | .queryErrorRegister => 6
  | .transmit _ => 7

/-- R16 (D2): `Data` = 0, `Remote` = 1. -/
def frameKindBit : FrameKind → BitVec 1
  | .data => 0
  | .remote => 1

/-- R16 (D2): `Standard` = 0, `Extended` = 1. -/
def idKindBit : IdKind → BitVec 1
  | .standard => 0
  | .extended => 1

end Sys2Proof.Machine
end

