-- ==== Sys2Proof/Machine/NibbleCodec.lean ====
section
/-! DEFINITION. The hex/nibble codec as calls of their own (40_hex_nibble_codec.md): the 22 rows of HEX2NIB and the 16
rows of NIB2HEX. Neither touches a space or any state but the result (R69). -/

namespace Sys2Proof.Machine

/-- `HEX2NIB(c)` (R66): ok of the nibble, or InvalidCharacter. -/
def State.callHex2nib (c : Byte) (s : State) : Host.Outcome State Fault Refusal :=
  match hex2nib c with
  | .ok v => .next (s.returnValue (.nibble v))
  | .err k => .next (s.raise k)

/-- `NIB2HEX(v)` (R64): never fails. -/
def State.callNib2hex (v : Nibble) (s : State) : Host.Outcome State Fault Refusal :=
  .next (s.returnValue (.byte (nib2hex v)))

/-! ## HEX2NIB (R66) -/

def execHexDigit0 (s : State) : Host.Outcome State Fault Refusal := s.callHex2nib 0x30
def execHexDigit1 (s : State) : Host.Outcome State Fault Refusal := s.callHex2nib 0x31
def execHexDigit2 (s : State) : Host.Outcome State Fault Refusal := s.callHex2nib 0x32
def execHexDigit3 (s : State) : Host.Outcome State Fault Refusal := s.callHex2nib 0x33
def execHexDigit4 (s : State) : Host.Outcome State Fault Refusal := s.callHex2nib 0x34
def execHexDigit5 (s : State) : Host.Outcome State Fault Refusal := s.callHex2nib 0x35
def execHexDigit6 (s : State) : Host.Outcome State Fault Refusal := s.callHex2nib 0x36
def execHexDigit7 (s : State) : Host.Outcome State Fault Refusal := s.callHex2nib 0x37
def execHexDigit8 (s : State) : Host.Outcome State Fault Refusal := s.callHex2nib 0x38
def execHexDigit9 (s : State) : Host.Outcome State Fault Refusal := s.callHex2nib 0x39
def execHexUpperA (s : State) : Host.Outcome State Fault Refusal := s.callHex2nib 0x41
def execHexUpperB (s : State) : Host.Outcome State Fault Refusal := s.callHex2nib 0x42
def execHexUpperC (s : State) : Host.Outcome State Fault Refusal := s.callHex2nib 0x43
def execHexUpperD (s : State) : Host.Outcome State Fault Refusal := s.callHex2nib 0x44
def execHexUpperE (s : State) : Host.Outcome State Fault Refusal := s.callHex2nib 0x45
def execHexUpperF (s : State) : Host.Outcome State Fault Refusal := s.callHex2nib 0x46
def execHexLowerA (s : State) : Host.Outcome State Fault Refusal := s.callHex2nib 0x61
def execHexLowerB (s : State) : Host.Outcome State Fault Refusal := s.callHex2nib 0x62
def execHexLowerC (s : State) : Host.Outcome State Fault Refusal := s.callHex2nib 0x63
def execHexLowerD (s : State) : Host.Outcome State Fault Refusal := s.callHex2nib 0x64
def execHexLowerE (s : State) : Host.Outcome State Fault Refusal := s.callHex2nib 0x65
def execHexLowerF (s : State) : Host.Outcome State Fault Refusal := s.callHex2nib 0x66

/-! ## NIB2HEX (R64) -/

def execNibble0 (s : State) : Host.Outcome State Fault Refusal := s.callNib2hex 0
def execNibble1 (s : State) : Host.Outcome State Fault Refusal := s.callNib2hex 1
def execNibble2 (s : State) : Host.Outcome State Fault Refusal := s.callNib2hex 2
def execNibble3 (s : State) : Host.Outcome State Fault Refusal := s.callNib2hex 3
def execNibble4 (s : State) : Host.Outcome State Fault Refusal := s.callNib2hex 4
def execNibble5 (s : State) : Host.Outcome State Fault Refusal := s.callNib2hex 5
def execNibble6 (s : State) : Host.Outcome State Fault Refusal := s.callNib2hex 6
def execNibble7 (s : State) : Host.Outcome State Fault Refusal := s.callNib2hex 7
def execNibble8 (s : State) : Host.Outcome State Fault Refusal := s.callNib2hex 8
def execNibble9 (s : State) : Host.Outcome State Fault Refusal := s.callNib2hex 9
def execNibble10 (s : State) : Host.Outcome State Fault Refusal := s.callNib2hex 10
def execNibble11 (s : State) : Host.Outcome State Fault Refusal := s.callNib2hex 11
def execNibble12 (s : State) : Host.Outcome State Fault Refusal := s.callNib2hex 12
def execNibble13 (s : State) : Host.Outcome State Fault Refusal := s.callNib2hex 13
def execNibble14 (s : State) : Host.Outcome State Fault Refusal := s.callNib2hex 14
def execNibble15 (s : State) : Host.Outcome State Fault Refusal := s.callNib2hex 15

end Sys2Proof.Machine
end

