-- ==== Sys2Proof/Machine/Transmit.lean ====
section
/-! DEFINITION. The four transmit commands (44_transmit_commands.md). Each runs after the common part of DECODE: `body`
is the converted body (R92). -/

namespace Sys2Proof.Machine

/-- R115: the `dlc` data bytes that follow the DLC nibble. -/
def bodyData (w : Nat) (body : List Nibble) : List Byte :=
  pairBytes ((body.drop (w + 1)).take (2 * (bodyAt body w).toNat))

/-- The frame that a complete body spells (R109 step 4). -/
def bodyFrame (kind : FrameKind) (idk : IdKind) (body : List Nibble) : CanFrame where
  frameKind := kind
  idKind := idk
  id := BitVec.ofNat 32 (assembleId (body.take (idWidth idk)))
  dlc := bodyAt body (idWidth idk)
  data := dataField (bodyData (idWidth idk) body)

/-- `TRANSMIT(kind, idk, body, L)` (R109): each `need(k)` (R92) stands before the read it protects, and the checks are
made in this order and no later one after a failure (R139). -/
def transmit (kind : FrameKind) (idk : IdKind) (body : List Nibble) : Result Command :=
  if body.length < idWidth idk then .err .truncatedInput
  else if idMax idk < assembleId (body.take (idWidth idk)) then .err .identifierOutOfRange
  else if body.length < idWidth idk + 1 then .err .truncatedInput
  else if dlcMax < (bodyAt body (idWidth idk)).toNat then .err .invalidDlc
  else if body.length < idWidth idk + 1 + 2 * (bodyAt body (idWidth idk)).toNat then .err .truncatedInput
  else .ok (.transmit (bodyFrame kind idk body))

/-- `t`, Transmit Standard Data (R116). -/
def execTxStdData (body : List Nibble) (s : State) : Host.Outcome State Fault Refusal :=
  s.finish (transmit .data .standard body)

/-- `T`, Transmit Extended Data (R117). -/
def execTxExtData (body : List Nibble) (s : State) : Host.Outcome State Fault Refusal :=
  s.finish (transmit .data .extended body)

/-- `r`, Transmit Standard Remote (R118); a non-zero DLC demands data digits (R121). -/
def execTxStdRemote (body : List Nibble) (s : State) : Host.Outcome State Fault Refusal :=
  s.finish (transmit .remote .standard body)

/-- `R`, Transmit Extended Remote (R119); a non-zero DLC demands data digits (R121). -/
def execTxExtRemote (body : List Nibble) (s : State) : Host.Outcome State Fault Refusal :=
  s.finish (transmit .remote .extended body)

end Sys2Proof.Machine
end

