-- ==== Sys2Proof/Machine/Dispatch.lean ====
section
/-! DEFINITION. One arm per instruction, each a direct call of its meaning. -/

namespace Sys2Proof.Machine

def exec (i : Instr) (s : State) : Host.Outcome State Fault Refusal :=
  match i with
  | .openO body => Sys2Proof.Machine.execOpenO body s
  | .closeC body => Sys2Proof.Machine.execCloseC body s
  | .setBitrateS body => Sys2Proof.Machine.execSetBitrateS body s
  | .silentUpperM body => Sys2Proof.Machine.execSilentUpperM body s
  | .silentLowerM body => Sys2Proof.Machine.execSilentLowerM body s
  | .autoUpperA body => Sys2Proof.Machine.execAutoUpperA body s
  | .autoLowerA body => Sys2Proof.Machine.execAutoLowerA body s
  | .versionV body => Sys2Proof.Machine.execVersionV body s
  | .errorE body => Sys2Proof.Machine.execErrorE body s
  | .txStdData body => Sys2Proof.Machine.execTxStdData body s
  | .txExtData body => Sys2Proof.Machine.execTxExtData body s
  | .txStdRemote body => Sys2Proof.Machine.execTxStdRemote body s
  | .txExtRemote body => Sys2Proof.Machine.execTxExtRemote body s
  | .encStdData id dlc data => Sys2Proof.Machine.execEncStdData id dlc data s
  | .encExtData id dlc data => Sys2Proof.Machine.execEncExtData id dlc data s
  | .encStdRemote id dlc data => Sys2Proof.Machine.execEncStdRemote id dlc data s
  | .encExtRemote id dlc data => Sys2Proof.Machine.execEncExtRemote id dlc data s
  | .hexDigit0 => Sys2Proof.Machine.execHexDigit0 s
  | .hexDigit1 => Sys2Proof.Machine.execHexDigit1 s
  | .hexDigit2 => Sys2Proof.Machine.execHexDigit2 s
  | .hexDigit3 => Sys2Proof.Machine.execHexDigit3 s
  | .hexDigit4 => Sys2Proof.Machine.execHexDigit4 s
  | .hexDigit5 => Sys2Proof.Machine.execHexDigit5 s
  | .hexDigit6 => Sys2Proof.Machine.execHexDigit6 s
  | .hexDigit7 => Sys2Proof.Machine.execHexDigit7 s
  | .hexDigit8 => Sys2Proof.Machine.execHexDigit8 s
  | .hexDigit9 => Sys2Proof.Machine.execHexDigit9 s
  | .hexUpperA => Sys2Proof.Machine.execHexUpperA s
  | .hexUpperB => Sys2Proof.Machine.execHexUpperB s
  | .hexUpperC => Sys2Proof.Machine.execHexUpperC s
  | .hexUpperD => Sys2Proof.Machine.execHexUpperD s
  | .hexUpperE => Sys2Proof.Machine.execHexUpperE s
  | .hexUpperF => Sys2Proof.Machine.execHexUpperF s
  | .hexLowerA => Sys2Proof.Machine.execHexLowerA s
  | .hexLowerB => Sys2Proof.Machine.execHexLowerB s
  | .hexLowerC => Sys2Proof.Machine.execHexLowerC s
  | .hexLowerD => Sys2Proof.Machine.execHexLowerD s
  | .hexLowerE => Sys2Proof.Machine.execHexLowerE s
  | .hexLowerF => Sys2Proof.Machine.execHexLowerF s
  | .nibble0 => Sys2Proof.Machine.execNibble0 s
  | .nibble1 => Sys2Proof.Machine.execNibble1 s
  | .nibble2 => Sys2Proof.Machine.execNibble2 s
  | .nibble3 => Sys2Proof.Machine.execNibble3 s
  | .nibble4 => Sys2Proof.Machine.execNibble4 s
  | .nibble5 => Sys2Proof.Machine.execNibble5 s
  | .nibble6 => Sys2Proof.Machine.execNibble6 s
  | .nibble7 => Sys2Proof.Machine.execNibble7 s
  | .nibble8 => Sys2Proof.Machine.execNibble8 s
  | .nibble9 => Sys2Proof.Machine.execNibble9 s
  | .nibble10 => Sys2Proof.Machine.execNibble10 s
  | .nibble11 => Sys2Proof.Machine.execNibble11 s
  | .nibble12 => Sys2Proof.Machine.execNibble12 s
  | .nibble13 => Sys2Proof.Machine.execNibble13 s
  | .nibble14 => Sys2Proof.Machine.execNibble14 s
  | .nibble15 => Sys2Proof.Machine.execNibble15 s

end Sys2Proof.Machine
end

