-- ==== Sys2Proof/Machine/Step.lean ====
section
/-! DEFINITION. One step: the next call of the session, from its inputs to its result, as one indivisible evaluation
(70_reset_and_hazards.md R158, decision D1). -/

namespace Sys2Proof.Machine

/-- One call: check LINE's contract, fetch the image, decode it, and run its meaning, or raise the error the decoder
names (R141). -/
def runCall (c : Call) (s : State) : Host.Outcome State Fault Refusal :=
  match s.lineRefusal c with
  | some r => .refused r
  | none =>
    match decode (s.fetchImage c) with
    | .ok i => exec i (s.afterFetch c)
    | .err k => .next ((s.afterFetch c).raise k)

/-- With no call pending nothing happens (log 3). -/
def step (s : State) : Host.Outcome State Fault Refusal :=
  match s.calls with
  | [] => .next s
  | c :: rest => runCall c (s.begin c rest)

/-- `s` with the call that a table word stands for as its next call, its own buffer with it (log 11). -/
def State.withFetchWord (s : State) (nbits w : Nat) : State :=
  { s with calls := Call.ofImage (tableImage nbits w) :: s.calls }

end Sys2Proof.Machine
end

