-- ==== Sys2Proof/Machine/Replies.lean ====
section
/-! DEFINITION. The edge of the block (45_replies_and_collaborators.md): the two reply formatters, and what the caller
does with the result of a call. The caller carries it out, not the block (R124), so these are functions of the state and
not part of a step (log 16). -/

namespace Sys2Proof.Machine

/-- `VERSION_REPLY` (R122, D17). -/
def versionReply (fw : List Byte) : List Byte := fw ++ [cr]

/-- `e[4k+3 : 4k]` for k from K-1 down to 0. -/
def regDigits : Nat → Nat → List Nibble
  | 0, _ => []
  | k + 1, e => BitVec.ofNat 4 (e / 16 ^ k) :: regDigits k e

/-- `K = ceil(ERR_REG_BITS / 4)` (R123). -/
def regDigitCount (bits : Nat) : Nat := (bits + 3) / 4

/-- `ERROR_REPLY(e)` (R123, D16, D17): K uppercase digits, most significant first, then the terminator. -/
def errorReply (bits e : Nat) : List Byte := (regDigits (regDigitCount bits) e).map nib2hex ++ [cr]

/-- The collaborator operations that consume a result (R125). The two suppliers, `error_register()` and
`firmware_version_string()`, are the inputs `State.errorRegister` and `Params.fwVersionString`. -/
inductive CollaboratorOp where
  | channelEnable
  | channelDisable
  | setBitrate (index : Nibble)
  | setSilentMode (on : Bool)
  | setAutoretransmit (on : Bool)
  | transmit (frame : CanFrame)
  | send (bytes : List Byte)
deriving DecidableEq, Repr

/-- The pairing of R124 (D18). -/
def consumer (p : Params) (errorRegister : Nat) : Command → CollaboratorOp
  | .opened => .channelEnable
  | .closed => .channelDisable
  | .setBitrate i => .setBitrate i
  | .setSilentMode b => .setSilentMode b
  | .setAutoRetransmit b => .setAutoretransmit b
  | .queryVersion => .send (versionReply p.fwVersionString)
  | .queryErrorRegister => .send (errorReply p.errRegBits errorRegister)
  | .transmit F => .transmit F

/-- What the caller does after a call: a Command goes to its consumer (R124), an encoded frame is sent whole (R126), an
error and a bare nibble or byte cause nothing (R126, R128). -/
def State.delivery (s : State) : Option CollaboratorOp :=
  match s.result with
  | some (.ok (.command c)) => some (consumer s.params s.errorRegister c)
  | some (.ok (.length n)) => some (.send (Memory.readBytes s.out.bytes 0 n))
  | _ => none

end Sys2Proof.Machine
end

