-- ==== Sys2Proof/Safety.lean ====
section
/-! DEFINITION. What claims are stated in: the invariant of the machine, and the caller's contract under which a run is
safe (70_reset_and_hazards.md sections 2 and 3). -/

namespace Sys2Proof.Machine

/-- A buffer in canonical form that lists nothing beyond its capacity. -/
abbrev Buffer.wf (b : Buffer) : Prop :=
  Memory.wf b.bytes ∧ ∀ c ∈ b.bytes, c.1 < b.capacity

/-- A call whose own buffer, if it brings one, is well-formed. -/
def Call.bufferWf : Call → Prop
  | .nib2hex _ => True
  | .hex2nib _ => True
  | .encode _ b => ∀ x ∈ b, x.wf
  | .decode b _ => ∀ x ∈ b, x.wf

/-- What a result may be: a delivered frame is well-formed (R120), a delivered bitrate index is below the bound (R102),
a delivered length is between 6 and 27 (R33). -/
def resultOk (p : Params) : Option (Result Value) → Prop
  | some (.ok (.command (.transmit F))) => frameWellFormed F = true
  | some (.ok (.command (.setBitrate i))) => i.toNat < p.canBitrateInvalid
  | some (.ok (.length n)) => 6 ≤ n ∧ n ≤ 27
  | _ => True

/-- The invariant of the machine. -/
structure State.Inv (s : State) : Prop where
  lineWf : s.line.wf
  outWf : s.out.wf
  callsWf : ∀ c ∈ s.calls, c.bufferWf
  registerFits : s.errorRegister < 2 ^ s.params.errRegBits
  resultFits : resultOk s.params s.result

/-- The caller keeps its contract for a call: every buffer exclusive (R153), OUT at least 27 bytes (R151), `length` true
(R155), and LINE never presented again (R154). -/
def Call.keepsContract : Call → Prop
  | .nib2hex _ => True
  | .hex2nib _ => True
  | .encode _ b => ∀ x ∈ b, x.exclusive = true ∧ outMin ≤ x.capacity
  | .decode b n => ∃ x ∈ b, x.exclusive = true ∧ n ≤ x.capacity

/-- The caller keeps its contract for the whole session, OUT included, which may be used again. -/
structure State.KeepsContract (s : State) : Prop where
  calls : ∀ c ∈ s.calls, c.keepsContract
  outOwned : s.out.exclusive = true
  outRoom : outMin ≤ s.out.capacity

end Sys2Proof.Machine
end

