-- ==== Sys2Proof/Certificates/Slice0/Obligations.lean ====
section
/-! DEFINITION. The statements for the provers, one `def Obligations.<Name> : Prop` each, listed in OBLIGATIONS.json. The
vocabulary at the head is written from the spec's tables and formulas, not from the model's functions. -/

namespace Sys2Proof.Spec

open Sys2Proof.Machine

/-- The digit character of a number below 16, by R64's formula. -/
def digit (n : Nat) : Byte := if n ≤ 9 then BitVec.ofNat 8 (0x30 + n) else BitVec.ofNat 8 (0x41 + (n - 10))

/-- R54: the sum of `body[k] * 16^(W-1-k)`. -/
def idValue (w : Nat) (body : List Nibble) : Nat :=
  ((List.range w).map fun k => (body.getD k 0).toNat * 16 ^ (w - 1 - k)).sum

/-- `'a'`..`'f'` to `'A'`..`'F'` (R68), every other byte as it is. -/
def upper (c : Byte) : Byte := if 0x61 ≤ c.toNat ∧ c.toNat ≤ 0x66 then c - 0x20 else c

/-- A line with the letters of its body uppercased. -/
def upperLine : List Byte → List Byte
  | [] => []
  | c0 :: rest => c0 :: rest.map upper

/-- The 22 hex digit characters (R53). -/
def HexDigit (c : Byte) : Prop :=
  (0x30 ≤ c.toNat ∧ c.toNat ≤ 0x39) ∨ (0x41 ≤ c.toNat ∧ c.toNat ≤ 0x46) ∨ (0x61 ≤ c.toNat ∧ c.toNat ≤ 0x66)

/-- The thirteen leading bytes (R58). -/
def leadingBytes : List Byte :=
  [0x4F, 0x43, 0x53, 0x4D, 0x6D, 0x41, 0x61] ++ [0x56, 0x45, 0x54, 0x74, 0x52, 0x72]

/-- The thirteen DECODE rows as functions of their body. -/
def lineForms : List (List Nibble → Instr) :=
    [Instr.openO, Instr.closeC, Instr.setBitrateS, Instr.silentUpperM] ++
    [Instr.silentLowerM, Instr.autoUpperA, Instr.autoLowerA, Instr.versionV] ++
    [Instr.errorE, Instr.txStdData, Instr.txExtData, Instr.txStdRemote] ++
    [Instr.txExtRemote]

/-- A line of `c0` and hex digits is the row `mk` with its converted body (R89, R90). -/
def ReadsAs (c0 : Byte) (mk : List Nibble → Instr) : Prop :=
  ∀ (digits : List Byte) (body : List Nibble), hexBody digits = .ok body → decodeLine (c0 :: digits) = .ok (mk body)

/-- The number a hex digit character spells (R53). -/
def digitValue (c : Byte) : Nat :=
  if c.toNat ≤ 0x39 then c.toNat - 0x30 else if c.toNat ≤ 0x46 then c.toNat - 0x41 + 10 else c.toNat - 0x61 + 10

/-- Phase 2 succeeds on a line of `n` bytes (R90). -/
def BodyIsHex (n : Nat) (line : Nat → Byte) : Prop := ∀ k, 1 ≤ k → k < n → HexDigit (line k)

/-- The number the `w` identifier digits of a line spell (R54). -/
def lineId (w : Nat) (line : Nat → Byte) : Nat :=
  ((List.range w).map fun k => digitValue (line (k + 1)) * 16 ^ (w - 1 - k)).sum

/-- A transmit row of R110: leading byte, its instruction, frame kind, identifier kind, `W`, `ID_MAX`. -/
structure TransmitForm where
  char : Byte
  instr : List Nibble → Instr
  kind : FrameKind
  idKind : IdKind
  width : Nat
  max : Nat

/-- The table of R110. -/
def transmitForms : List TransmitForm :=
    [⟨0x74, .txStdData, .data, .standard, 3, 0x7FF⟩, ⟨0x54, .txExtData, .data, .extended, 8, 0x1FFFFFFF⟩] ++
    [⟨0x72, .txStdRemote, .remote, .standard, 3, 0x7FF⟩, ⟨0x52, .txExtRemote, .remote, .extended, 8, 0x1FFFFFFF⟩]

/-- An ENCODE row: its instruction, frame kind, identifier kind, type character (R59), `W`, `ID_MAX`. -/
structure EncodeForm where
  instr : IdWord → Nibble → DataField → Instr
  kind : FrameKind
  idKind : IdKind
  char : Byte
  width : Nat
  max : Nat

/-- The table of R59 with the widths and maxima of R10. -/
def encodeForms : List EncodeForm :=
    [⟨.encStdData, .data, .standard, 0x74, 3, 0x7FF⟩, ⟨.encExtData, .data, .extended, 0x54, 8, 0x1FFFFFFF⟩] ++
    [⟨.encStdRemote, .remote, .standard, 0x72, 3, 0x7FF⟩, ⟨.encExtRemote, .remote, .extended, 0x52, 8, 0x1FFFFFFF⟩]

/-- The rows of HEX2NIB: the instruction and the nibble it returns (R66). -/
def hexRows : List (Instr × Nibble) :=
    [(.hexDigit0, 0), (.hexDigit1, 1), (.hexDigit2, 2), (.hexDigit3, 3), (.hexDigit4, 4)] ++
    [(.hexDigit5, 5), (.hexDigit6, 6), (.hexDigit7, 7), (.hexDigit8, 8), (.hexDigit9, 9)] ++
    [(.hexUpperA, 10), (.hexUpperB, 11), (.hexUpperC, 12), (.hexUpperD, 13), (.hexUpperE, 14)] ++
    [(.hexUpperF, 15), (.hexLowerA, 10), (.hexLowerB, 11), (.hexLowerC, 12), (.hexLowerD, 13)] ++
    [(.hexLowerE, 14), (.hexLowerF, 15)]

/-- The rows of NIB2HEX: the instruction and the byte it returns (R64's table). -/
def nibRows : List (Instr × Byte) :=
    [(.nibble0, 0x30), (.nibble1, 0x31), (.nibble2, 0x32), (.nibble3, 0x33)] ++
    [(.nibble4, 0x34), (.nibble5, 0x35), (.nibble6, 0x36), (.nibble7, 0x37)] ++
    [(.nibble8, 0x38), (.nibble9, 0x39), (.nibble10, 0x41), (.nibble11, 0x42)] ++
    [(.nibble12, 0x43), (.nibble13, 0x44), (.nibble14, 0x45), (.nibble15, 0x46)]

/-- `s` with the result of a call that succeeded. -/
def okState (s : State) (v : Value) : State := { s with result := some (.ok v) }

/-- `s` with the result of a call that failed. -/
def errState (s : State) (k : ErrorKind) : State := { s with result := some (.err k) }

/-- A DECODE call with a fresh buffer that keeps the caller's contract (R153, R155) stands first in the session. -/
structure FreshDecode (s : State) (b : Buffer) (n : Nat) (rest : List Call) : Prop where
  call : s.calls = .decode (some b) n :: rest
  owned : b.exclusive = true
  trueLength : n ≤ b.capacity

/-- An ENCODE call with a fresh buffer that keeps the caller's contract (R151, R153) stands first in the session. -/
structure FreshEncode (s : State) (F : CanFrame) (b : Buffer) (rest : List Call) : Prop where
  call : s.calls = .encode F (some b) :: rest
  owned : b.exclusive = true
  room : 27 ≤ b.capacity

/-- The result an outcome delivers, if it is a next state. -/
def resultOf : Host.Outcome State Fault Refusal → Option (Option (Result Value))
  | .next t => some t.result
  | .fault _ => none
  | .refused _ => none

end Sys2Proof.Spec

open Sys2Proof Sys2Proof.Machine Sys2Proof.Spec

/-! ## Hex/Nibble Codec -/

/-- R64: each of the sixteen NIB2HEX rows completes with its byte and changes nothing else. -/
def Obligations.Nib2HexRowsReturnTheirByte : Prop :=
  ∀ s : State, ∀ p ∈ nibRows, exec p.1 s = .next (okState s (.byte p.2))

/-- R64, R69: a NIB2HEX call returns the digit of its operand and touches no space. (That the call leaves the session is
the model's choice, log 3.) -/
def Obligations.Nib2HexCallReturnsDigit : Prop :=
  ∀ (s : State) (v : Nibble) (rest : List Call), s.calls = .nib2hex v :: rest →
    ∃ t, step s = .next t ∧ t.result = some (.ok (.byte (digit v.toNat))) ∧
      t.calls = rest ∧ t.line = s.line ∧ t.length = s.length ∧ t.out = s.out ∧ t.params = s.params

/-- R66, its accepted bytes: each of the 22 HEX2NIB rows completes with its nibble and changes nothing else. -/
def Obligations.Hex2NibRowsReturnTheirNibble : Prop :=
  ∀ s : State, ∀ p ∈ hexRows, exec p.1 s = .next (okState s (.nibble p.2))

/-- R66, R67: a HEX2NIB call is total on all 256 bytes; 22 give their value, every other byte is InvalidCharacter, and no
space is touched. (That the call leaves the session is the model's choice, log 3.) -/
def Obligations.Hex2NibCallIsTotal : Prop :=
  ∀ (s : State) (c : Byte) (rest : List Call), s.calls = .hex2nib c :: rest →
    ∃ t, step s = .next t ∧
      (0x30 ≤ c.toNat ∧ c.toNat ≤ 0x39 → t.result = some (.ok (.nibble (BitVec.ofNat 4 (c.toNat - 0x30))))) ∧
      (0x41 ≤ c.toNat ∧ c.toNat ≤ 0x46 → t.result = some (.ok (.nibble (BitVec.ofNat 4 (c.toNat - 0x41 + 10))))) ∧
      (0x61 ≤ c.toNat ∧ c.toNat ≤ 0x66 → t.result = some (.ok (.nibble (BitVec.ofNat 4 (c.toNat - 0x61 + 10))))) ∧
      (¬ HexDigit c → t.result = some (.err .invalidCharacter)) ∧
      t.calls = rest ∧ t.line = s.line ∧ t.length = s.length ∧ t.out = s.out ∧ t.params = s.params

/-- R68: the two operations are inverse up to letter case. -/
def Obligations.NibbleConversionsAreInverse : Prop :=
  (∀ v : Nibble, hex2nib (nib2hex v) = .ok v) ∧
  (∀ (c : Byte) (v : Nibble), hex2nib c = .ok v → nib2hex v = upper c) ∧
  (∀ (c d : Byte) (v : Nibble), hex2nib c = .ok v → hex2nib d = .ok v → c.toNat < 0x61 → d.toNat < 0x61 → c = d) ∧
  (∀ c : Byte, 0x61 ≤ c.toNat → c.toNat ≤ 0x66 → hex2nib c = hex2nib (c - 0x20))

/-! ## Decoding and encoding calls -/

/-- The decoder gives back every instruction from its encoding, every operand at every value. -/
def Obligations.DecodeOfEncodeIsIdentity : Prop :=
  ∀ i : Instr, decode (encode i) = .ok i

/-- The encoder gives back every image the decoder accepts, a line with its body letters uppercased (R53, R68). -/
def Obligations.EncodeOfDecodeIsUppercase : Prop :=
  ∀ (m : CallImage) (i : Instr), decode m = .ok i →
    encode i = (match m with | .line bytes => .line (upperLine bytes) | other => other)

/-- Words written out from the spec's encodings (R47, R50, R51, R66; 95_test_vectors.md). -/
def Obligations.DecodedWordsAreTheirRows : Prop :=
  decode (.line [0x4F]) = .ok (.openO []) ∧
  decode (.line [0x53, 0x33]) = .ok (.setBitrateS [3]) ∧
  decode (.line [0x61, 0x41]) = .ok (.autoLowerA [10]) ∧
  decode (.line [0x74, 0x31, 0x32, 0x33, 0x32, 0x41, 0x42, 0x43, 0x44]) = .ok (.txStdData [1, 2, 3, 2, 10, 11, 12, 13]) ∧
  decode (.line [0x52, 0x30, 0x30, 0x31, 0x61, 0x42, 0x63, 0x44, 0x65, 0x30]) =
    .ok (.txExtRemote [0, 0, 1, 10, 11, 12, 13, 14, 0]) ∧
  decode (.char 0x66) = .ok .hexLowerF ∧ decode (.nibble 11) = .ok .nibble11

/-- A step runs the decoded instruction: it starts the call, loads its buffers, fetches the image, consumes LINE if the
call is DECODE, and is then exec; where the decoder names an error it raises that error (R141); with no call pending it
changes nothing (the model's choice, log 3). -/
def Obligations.StepRunsTheDecodedInstruction : Prop :=
  (∀ (s : State) (c : Call) (rest : List Call) (i : Instr), s.calls = c :: rest →
    (s.begin c rest).lineRefusal c = none → decode ((s.begin c rest).fetchImage c) = .ok i →
    step s = exec i ((s.begin c rest).afterFetch c)) ∧
  (∀ (s : State) (c : Call) (rest : List Call) (k : ErrorKind), s.calls = c :: rest →
    (s.begin c rest).lineRefusal c = none → decode ((s.begin c rest).fetchImage c) = .err k →
    step s = .next (errState ((s.begin c rest).afterFetch c) k)) ∧
  (∀ s : State, s.calls = [] → step s = .next s)

/-! ## Command Decoder: the common part -/

/-- R133, R60: UnknownCommand is raised by DECODE exactly when there is a byte 0 and it is none of the thirteen, and by
no other operation. -/
def Obligations.UnknownCommandExactly : Prop :=
  (∀ (s : State) (b : Buffer) (n : Nat) (rest : List Call), FreshDecode s b n rest →
    ∃ t, step s = .next t ∧
      (t.result = some (.err .unknownCommand) ↔ 1 ≤ n ∧ Memory.read b.bytes 0 ∉ leadingBytes)) ∧
  ∀ (s t : State) (c : Call) (rest : List Call), s.calls = c :: rest → (∀ b n, c ≠ .decode b n) → step s = .next t →
    t.result ≠ some (.err .unknownCommand)

/-- R132, R61: InvalidCharacter is raised by DECODE exactly when byte 0 is recognised and some body byte below `length`
is no hex digit, at every index and whatever else is wrong with the line; by HEX2NIB exactly when its byte is no hex
digit; never by ENCODE or NIB2HEX. -/
def Obligations.InvalidCharacterExactly : Prop :=
  (∀ (s : State) (b : Buffer) (n : Nat) (rest : List Call), FreshDecode s b n rest →
    ∃ t, step s = .next t ∧
      (t.result = some (.err .invalidCharacter) ↔
        1 ≤ n ∧ Memory.read b.bytes 0 ∈ leadingBytes ∧ ∃ k, 1 ≤ k ∧ k < n ∧ ¬ HexDigit (Memory.read b.bytes k))) ∧
  (∀ (s : State) (c : Byte) (rest : List Call), s.calls = .hex2nib c :: rest →
    ∃ t, step s = .next t ∧ (t.result = some (.err .invalidCharacter) ↔ ¬ HexDigit c)) ∧
  (∀ (s t : State) (F : CanFrame) (b : Option Buffer) (rest : List Call), s.calls = .encode F b :: rest →
    step s = .next t → t.result ≠ some (.err .invalidCharacter)) ∧
  (∀ (s t : State) (v : Nibble) (rest : List Call), s.calls = .nib2hex v :: rest → step s = .next t →
    t.result ≠ some (.err .invalidCharacter))

/-- R134 to R137: InvalidBitrate, InvalidDlc, TruncatedInput and IdentifierOutOfRange are raised exactly in these cases:
the DECODE cases, the ENCODE cases, and none by the nibble conversions. -/
def Obligations.RemainingErrorKindsExactly : Prop :=
  (∀ (s : State) (b : Buffer) (n : Nat) (rest : List Call), FreshDecode s b n rest →
    let line := Memory.read b.bytes
    let bound := s.params.canBitrateInvalid
    ∃ t, step s = .next t ∧
      (t.result = some (.err .invalidBitrate) ↔
        2 ≤ n ∧ line 0 = 0x53 ∧ BodyIsHex n line ∧ bound ≤ digitValue (line 1)) ∧
      (t.result = some (.err .invalidDlc) ↔
        ∃ f ∈ transmitForms, f.width + 2 ≤ n ∧ line 0 = f.char ∧ BodyIsHex n line ∧ lineId f.width line ≤ f.max ∧
          8 < digitValue (line (f.width + 1))) ∧
      (t.result = some (.err .truncatedInput) ↔
        n = 0 ∨
        (n = 1 ∧ line 0 ∈ [(0x53 : Byte), 0x4D, 0x6D, 0x41, 0x61]) ∨
        ∃ f ∈ transmitForms, 1 ≤ n ∧ line 0 = f.char ∧ BodyIsHex n line ∧
          (n - 1 < f.width ∨ (n - 1 = f.width ∧ lineId f.width line ≤ f.max) ∨
            (f.width + 1 ≤ n - 1 ∧ lineId f.width line ≤ f.max ∧ digitValue (line (f.width + 1)) ≤ 8 ∧
              n - 1 < f.width + 1 + 2 * digitValue (line (f.width + 1))))) ∧
      (t.result = some (.err .identifierOutOfRange) ↔
        ∃ f ∈ transmitForms, f.width + 1 ≤ n ∧ line 0 = f.char ∧ BodyIsHex n line ∧ f.max < lineId f.width line)) ∧
  (∀ (s : State) (F : CanFrame) (b : Buffer) (rest : List Call), FreshEncode s F b rest →
    let max := if F.idKind = .standard then 0x7FF else 0x1FFFFFFF
    ∃ t, step s = .next t ∧
      (t.result = some (.err .identifierOutOfRange) ↔ max < F.id.toNat) ∧
      (t.result = some (.err .invalidDlc) ↔ F.id.toNat ≤ max ∧ 8 < F.dlc.toNat) ∧
      t.result ≠ some (.err .invalidBitrate) ∧ t.result ≠ some (.err .truncatedInput)) ∧
  (∀ (s t : State) (c : Call) (rest : List Call) (k : ErrorKind), s.calls = c :: rest →
    ((∃ v, c = .nib2hex v) ∨ ∃ x, c = .hex2nib x) → step s = .next t → t.result = some (.err k) → k = .invalidCharacter)

/-- R94 (decision D5): surplus nibbles change nothing once the command is complete; surplus hex digits leave the row as it
is and only lengthen its body by the nibbles they spell; a surplus byte that is no hex digit fails. -/
def Obligations.SurplusIsValidatedThenIgnored : Prop :=
  (∀ mk ∈ lineForms, ∀ (body surplus : List Nibble) (s : State), (mk body).wellFormed = true →
    exec (mk (body ++ surplus)) s = exec (mk body) s) ∧
  (∀ (bytes surplus : List Byte) (i : Instr), decodeLine bytes = .ok i →
    ((∃ c ∈ surplus, ¬ HexDigit c) → decodeLine (bytes ++ surplus) = .err .invalidCharacter) ∧
    ((∀ c ∈ surplus, HexDigit c) → ∃ mk ∈ lineForms, ∃ body extra : List Nibble, i = mk body ∧
      extra.map (·.toNat) = surplus.map digitValue ∧ decodeLine (bytes ++ surplus) = .ok (mk (body ++ extra))))

/-- R39, R31: after DECODE, byte 0 and every byte at or beyond `length` are as before. -/
def Obligations.DecodeLeavesLineOutsideBody : Prop :=
  ∀ (s : State) (b : Buffer) (n : Nat) (rest : List Call), FreshDecode s b n rest →
    ∃ t, step s = .next t ∧ t.line.capacity = b.capacity ∧ t.line.exclusive = b.exclusive ∧
      Memory.read t.line.bytes 0 = Memory.read b.bytes 0 ∧
      ∀ a, n ≤ a → Memory.read t.line.bytes a = Memory.read b.bytes a

/-- R87, R31: the result of DECODE is a function of the bytes below `length`, of `length` and of the bitrate bound. -/
def Obligations.DecodeResultIsPure : Prop :=
  ∀ (s u : State) (b d : Buffer) (n : Nat) (rest rest' : List Call), FreshDecode s b n rest → FreshDecode u d n rest' →
    s.params.canBitrateInvalid = u.params.canBitrateInvalid →
    (∀ a, a < n → Memory.read b.bytes a = Memory.read d.bytes a) →
    ∃ t v, step s = .next t ∧ step u = .next v ∧ t.result = v.result

/-- R155, R43 (decisions D23, D24): a DECODE call whose length exceeds its buffer, or whose buffer is shared, is refused,
whether the call brings the buffer or uses the one that already stands in LINE (log 20). -/
def Obligations.DecodeRefusesBrokenContract : Prop :=
  ∀ (s : State) (b : Option Buffer) (n : Nat) (rest : List Call), s.calls = .decode b n :: rest →
    ((b.getD s.line).exclusive = false → step s = .refused .bufferShared) ∧
    ((b.getD s.line).exclusive = true → (b.getD s.line).capacity < n → step s = .refused .lengthBeyondBuffer)

/-! ## Control commands -/

/-- R100, R101, R107, R108: the rows `O`, `C`, `V`, `E` (not their lowercase letters, which are UnknownCommand) complete
on every body and change the result alone; a surplus byte that is no hex digit is InvalidCharacter; `C` as a body byte is
the digit 12. -/
def Obligations.NoOperandCommandsComplete : Prop :=
  (ReadsAs 0x4F .openO ∧ ReadsAs 0x43 .closeC ∧ ReadsAs 0x56 .versionV ∧ ReadsAs 0x45 .errorE) ∧
  (∀ c0 ∈ [(0x6F : Byte), 0x63, 0x76, 0x65], ∀ rest, decodeLine (c0 :: rest) = .err .unknownCommand) ∧
  (∀ c0 ∈ [(0x4F : Byte), 0x43, 0x56, 0x45], ∀ rest, (∃ c ∈ rest, ¬ HexDigit c) →
    decodeLine (c0 :: rest) = .err .invalidCharacter) ∧
  hex2nib 0x43 = .ok 12 ∧
  ∀ (body : List Nibble) (s : State),
    exec (.openO body) s = .next (okState s (.command .opened)) ∧
    exec (.closeC body) s = .next (okState s (.command .closed)) ∧
    exec (.versionV body) s = .next (okState s (.command .queryVersion)) ∧
    exec (.errorE body) s = .next (okState s (.command .queryErrorRegister))

/-- R102: `S` delivers its first nibble exactly when it is below the bound; the bound accepts every nibble from 16 on and
none at 0; `A` and `a` spell the same index; the operand must be there. -/
def Obligations.SetBitrateChecksTheBound : Prop :=
  ReadsAs 0x53 .setBitrateS ∧ hex2nib 0x41 = .ok 10 ∧ hex2nib 0x61 = .ok 10 ∧
  ∀ (n : Nibble) (surplus : List Nibble) (s : State),
    (n.toNat < s.params.canBitrateInvalid →
      exec (.setBitrateS (n :: surplus)) s = .next (okState s (.command (.setBitrate n)))) ∧
    (s.params.canBitrateInvalid ≤ n.toNat →
      exec (.setBitrateS (n :: surplus)) s = .next (errState s .invalidBitrate)) ∧
    exec (.setBitrateS []) s = .next (errState s .truncatedInput)

/-- R99, R103 to R106: `M`, `m`, `A`, `a` deliver true for the nibble 1 and false for every other; a missing operand is
TruncatedInput. -/
def Obligations.FlagCommandsComplete : Prop :=
  (ReadsAs 0x4D .silentUpperM ∧ ReadsAs 0x6D .silentLowerM ∧ ReadsAs 0x41 .autoUpperA ∧ ReadsAs 0x61 .autoLowerA) ∧
  (∀ s : State, ∀ i ∈ [Instr.silentUpperM [], .silentLowerM [], .autoUpperA [], .autoLowerA []],
    exec i s = .next (errState s .truncatedInput)) ∧
  ∀ (n : Nibble) (surplus : List Nibble) (s : State),
    exec (.silentUpperM (n :: surplus)) s = .next (okState s (.command (.setSilentMode (decide (n.toNat = 1))))) ∧
    exec (.silentLowerM (n :: surplus)) s = .next (okState s (.command (.setSilentMode (decide (n.toNat = 1))))) ∧
    exec (.autoUpperA (n :: surplus)) s = .next (okState s (.command (.setAutoRetransmit (decide (n.toNat = 1))))) ∧
    exec (.autoLowerA (n :: surplus)) s = .next (okState s (.command (.setAutoRetransmit (decide (n.toNat = 1)))))

/-! ## Transmit commands -/

/-- R109 to R119, R121: the whole of TRANSMIT for each of `t T r R`, every check in its order, and the frame of a complete
body, field by field, Data and Remote alike; the result is all that changes. (That the carrier is 0 from `dlc` on is
decision D19, log 17.) -/
def Obligations.TransmitFollowsTheSteps : Prop :=
  ∀ f ∈ transmitForms, ReadsAs f.char f.instr ∧ ∀ (body : List Nibble) (s : State),
    let L := body.length
    let acc := idValue f.width body
    let d := (body.getD f.width 0).toNat
    (L < f.width → exec (f.instr body) s = .next (errState s .truncatedInput)) ∧
    (f.width ≤ L → f.max < acc → exec (f.instr body) s = .next (errState s .identifierOutOfRange)) ∧
    (L = f.width → acc ≤ f.max → exec (f.instr body) s = .next (errState s .truncatedInput)) ∧
    (f.width + 1 ≤ L → acc ≤ f.max → 8 < d → exec (f.instr body) s = .next (errState s .invalidDlc)) ∧
    (f.width + 1 ≤ L → acc ≤ f.max → d ≤ 8 → L < f.width + 1 + 2 * d →
      exec (f.instr body) s = .next (errState s .truncatedInput)) ∧
    (f.width + 1 + 2 * d ≤ L → acc ≤ f.max → d ≤ 8 →
      ∃ F : CanFrame, exec (f.instr body) s = .next (okState s (.command (.transmit F))) ∧
        F.frameKind = f.kind ∧ F.idKind = f.idKind ∧ F.id.toNat = acc ∧ F.dlc = body.getD f.width 0 ∧
        ∀ j : Fin 8, F.data[j].toNat =
          if j.val < d then
            16 * (body.getD (f.width + 1 + 2 * j.val) 0).toNat + (body.getD (f.width + 2 + 2 * j.val) 0).toNat
          else 0)

/-- R120, its first sentence: every frame a line delivers is well-formed, and its carrier is 0 beyond `dlc` (D19). -/
def Obligations.DeliveredFramesAreWellFormed : Prop :=
  ∀ mk ∈ lineForms, ∀ (body : List Nibble) (s t : State) (F : CanFrame), exec (mk body) s = .next t →
    t.result = some (.ok (.command (.transmit F))) →
    (F.idKind = .standard → F.id.toNat ≤ 0x7FF) ∧ (F.idKind = .extended → F.id.toNat ≤ 0x1FFFFFFF) ∧
    F.dlc.toNat ≤ 8 ∧ ∀ j : Fin 8, F.dlc.toNat ≤ j.val → F.data[j] = 0

/-- R63: a line's command is delivered exactly when the grammar accepts it (for `S`, the index below the bound too), and
a frame is encoded exactly when it is well-formed; whatever exec does not refuse ends in a value or an error kind. -/
def Obligations.GrammarIsWhatSucceeds : Prop :=
  ∀ (i : Instr) (s t : State), exec i s = .next t →
    ((∃ v, t.result = some (.ok v)) ↔
      i.wellFormed = true ∧ ∀ n surplus, i = .setBitrateS (n :: surplus) → n.toNat < s.params.canBitrateInvalid)

/-! ## Frame Encoder -/

/-- R74 to R79, R40: each ENCODE form on a well-formed frame and a lawful OUT completes with length `W + 2*dlc + 3`; OUT
holds the message, byte by byte, and every byte beyond it is as before; nothing else changes but the result. -/
def Obligations.EncodeWritesTheMessage : Prop :=
  ∀ f ∈ encodeForms, ∀ (id : IdWord) (dlc : Nibble) (data : DataField) (s : State),
    s.out.exclusive = true → 27 ≤ s.out.capacity → id.toNat ≤ f.max → dlc.toNat ≤ 8 →
    ∃ m : Memory,
      exec (f.instr id dlc data) s = .next
        { s with
          out := { s.out with bytes := m }
          result := some (.ok (.length (f.width + 2 * dlc.toNat + 3))) } ∧
      Memory.read m 0 = f.char ∧
      (∀ k, k < f.width → Memory.read m (1 + k) = digit (id.toNat / 16 ^ (f.width - 1 - k) % 16)) ∧
      Memory.read m (f.width + 1) = digit dlc.toNat ∧
      (∀ j : Fin 8, j.val < dlc.toNat →
        Memory.read m (f.width + 2 + 2 * j.val) = digit (data[j].toNat / 16) ∧
        Memory.read m (f.width + 3 + 2 * j.val) = digit (data[j].toNat % 16)) ∧
      Memory.read m (f.width + 2 + 2 * dlc.toNat) = 0x0D ∧
      ∀ a, f.width + 2 + 2 * dlc.toNat < a → Memory.read m a = Memory.read s.out.bytes a

/-- R71, R72, R140, R41: an ill-formed frame fails, the identifier reported first, and no byte of OUT is written. -/
def Obligations.EncodeRejectsIllFormedFrames : Prop :=
  ∀ f ∈ encodeForms, ∀ (id : IdWord) (dlc : Nibble) (data : DataField) (s : State),
    s.out.exclusive = true → 27 ≤ s.out.capacity →
    (f.max < id.toNat → exec (f.instr id dlc data) s = .next (errState s .identifierOutOfRange)) ∧
    (id.toNat ≤ f.max → 8 < dlc.toNat → exec (f.instr id dlc data) s = .next (errState s .invalidDlc))

/-- R17, R73: ENCODE ignores the carrier's bytes at index `dlc` and beyond. -/
def Obligations.EncodeIgnoresBytesBeyondDlc : Prop :=
  ∀ f ∈ encodeForms, ∀ (id : IdWord) (dlc : Nibble) (d e : DataField) (s : State),
    (∀ j : Fin 8, j.val < dlc.toNat → d[j] = e[j]) → exec (f.instr id dlc d) s = exec (f.instr id dlc e) s

/-- R32, R151 (decision D22): an OUT under 27 bytes is refused, whatever the frame. R43, R153 (decision D24): so is an OUT
that another agent shares, whatever its size (that sharing is the one named is log 8). -/
def Obligations.EncodeRefusesSmallBuffer : Prop :=
  ∀ f ∈ encodeForms, ∀ (id : IdWord) (dlc : Nibble) (data : DataField) (s : State),
    (s.out.exclusive = false → exec (f.instr id dlc data) s = .refused .bufferShared) ∧
    (s.out.exclusive = true → s.out.capacity < 27 → exec (f.instr id dlc data) s = .refused .outBufferTooSmall)

/-- R85: what ENCODE writes is a type character, uppercase hex digits, and one final 0x0D. -/
def Obligations.EncodedBytesStayInTheAlphabet : Prop :=
  ∀ f ∈ encodeForms, ∀ (id : IdWord) (dlc : Nibble) (data : DataField) (s t : State) (n : Nat),
    exec (f.instr id dlc data) s = .next t → t.result = some (.ok (.length n)) →
    6 ≤ n ∧ n ≤ 27 ∧ Memory.read t.out.bytes 0 ∈ [(0x74 : Byte), 0x54, 0x72, 0x52] ∧
    Memory.read t.out.bytes (n - 1) = 0x0D ∧
    ∀ k, 1 ≤ k → k < n - 1 →
      (0x30 ≤ (Memory.read t.out.bytes k).toNat ∧ (Memory.read t.out.bytes k).toNat ≤ 0x39) ∨
      (0x41 ≤ (Memory.read t.out.bytes k).toNat ∧ (Memory.read t.out.bytes k).toNat ≤ 0x46)

/-- R34: DECODE never touches OUT, ENCODE never touches LINE, and ENCODE never reads OUT: the bytes it finds there
change neither its result nor what it writes. -/
def Obligations.SpacesAreSeparate : Prop :=
  (∀ (s t : State) (b : Option Buffer) (n : Nat) (rest : List Call), s.calls = .decode b n :: rest →
    step s = .next t → t.out = s.out) ∧
  (∀ (s t : State) (F : CanFrame) (b : Option Buffer) (rest : List Call), s.calls = .encode F b :: rest →
    step s = .next t → t.line = s.line ∧ t.length = s.length) ∧
  (∀ (s u : State) (F : CanFrame) (b d : Buffer) (rest rest' : List Call), FreshEncode s F b rest →
    FreshEncode u F d rest' → ∃ t v, step s = .next t ∧ step u = .next v ∧ t.result = v.result ∧
      ∀ n, t.result = some (.ok (.length n)) → ∀ a, a < n →
        Memory.read t.out.bytes a = Memory.read v.out.bytes a)

/-! ## Round trips -/

/-- R120: decoding the encoded line without its terminator gives the frame back. -/
def Obligations.DecodeOfEncodedFrameIsTheFrame : Prop :=
  ∀ (s : State) (F : CanFrame) (b : Buffer) (rest : List Call), FreshEncode s F b rest → frameWellFormed F = true →
    ∃ t n, step s = .next t ∧ t.result = some (.ok (.length n)) ∧
      ∀ (u : State) (rest' : List Call), u.calls = .decode (some t.out) (n - 1) :: rest' →
        ∃ v, step u = .next v ∧ v.result = some (.ok (.command (.transmit (canonicalFrame F)))) ∧
          sameFrame (canonicalFrame F) F = true

/-- R120, its converse: encoding a delivered frame gives the needed bytes of the line, letters uppercased, and the
terminator. -/
def Obligations.EncodeOfDecodedFrameIsTheLine : Prop :=
  ∀ (s t : State) (b : Buffer) (n : Nat) (rest : List Call) (F : CanFrame), FreshDecode s b n rest →
    step s = .next t → t.result = some (.ok (.command (.transmit F))) →
    ∀ (u : State) (d : Buffer) (rest' : List Call), FreshEncode u F d rest' →
      ∃ v m, step u = .next v ∧ v.result = some (.ok (.length (m + 1))) ∧ m ≤ n ∧
        m = (if F.idKind = .standard then 3 else 8) + 2 + 2 * F.dlc.toNat ∧
        (∀ a, a < m → Memory.read v.out.bytes a = (if a = 0 then Memory.read b.bytes 0 else upper (Memory.read b.bytes a))) ∧
        Memory.read v.out.bytes m = 0x0D

/-! ## Whole machine -/

/-- Every instruction but the four ENCODE forms changes the result and nothing else. -/
def Obligations.OnlyEncodeChangesMoreThanTheResult : Prop :=
  ∀ (i : Instr) (s t : State), (∀ f ∈ encodeForms, ∀ id dlc data, i ≠ f.instr id dlc data) →
    exec i s = .next t → t = { s with result := t.result }

/-- R138: which operation can return which kind. -/
def Obligations.ErrorKindsByOperation : Prop :=
  ∀ (s t : State) (c : Call) (rest : List Call) (k : ErrorKind), s.calls = c :: rest → step s = .next t →
    t.result = some (.err k) →
    match c with
    | .nib2hex _ => False
    | .hex2nib _ => k = .invalidCharacter
    | .encode _ _ => k = .invalidDlc ∨ k = .identifierOutOfRange
    | .decode b n =>
      let c0 := Memory.read (b.getD s.line).bytes 0
      (n = 0 → k = .truncatedInput) ∧
      (1 ≤ n → c0 ∈ [(0x4F : Byte), 0x43, 0x56, 0x45] → k = .invalidCharacter) ∧
      (1 ≤ n → c0 = 0x53 → k = .invalidCharacter ∨ k = .invalidBitrate ∨ k = .truncatedInput) ∧
      (1 ≤ n → c0 ∈ [(0x4D : Byte), 0x6D, 0x41, 0x61] → k = .invalidCharacter ∨ k = .truncatedInput) ∧
      (1 ≤ n → c0 ∈ [(0x74 : Byte), 0x54, 0x72, 0x52] →
        k = .invalidCharacter ∨ k = .invalidDlc ∨ k = .truncatedInput ∨ k = .identifierOutOfRange) ∧
      (1 ≤ n → c0 ∉ leadingBytes → k = .unknownCommand)

/-- R95: a call delivers exactly one result, of its operation's kind. (That it takes exactly one call off the session is
the model's choice, log 3.) -/
def Obligations.OneCallOneResult : Prop :=
  ∀ (s t : State) (c : Call) (rest : List Call), s.calls = c :: rest → step s = .next t →
    t.calls = rest ∧
    match c, t.result with
    | _, none => False
    | _, some (.err _) => True
    | .nib2hex _, some (.ok v) => ∃ x, v = .byte x
    | .hex2nib _, some (.ok v) => ∃ x, v = .nibble x
    | .encode _ _, some (.ok v) => ∃ x, v = .length x
    | .decode _ _, some (.ok v) => ∃ x, v = .command x

/-- R146: what a call returns depends on the call, on the buffer it reads or writes and on the parameters alone, whatever
commands came before it: "each call is independent" (R142). -/
def Obligations.CallsAreIndependent : Prop :=
  ∀ (s u : State) (c : Call) (rest rest' : List Call), s.calls = c :: rest → u.calls = c :: rest' →
    s.params = u.params → (∀ b n, c = .decode b n → b.getD s.line = b.getD u.line) →
    (∀ F b, c = .encode F b → b.getD s.out = b.getD u.out) → resultOf (step s) = resultOf (step u)

/-- R27, R148: the first call after reset behaves exactly as any other call; LINE and OUT are the caller's and are not
changed by reset. -/
def Obligations.FirstCallAfterResetIsLikeAnyOther : Prop :=
  ∀ (s : State) (c : Call) (rest : List Call),
    resultOf (step { s with calls := c :: rest }) =
      resultOf (step { State.reset with params := s.params, line := s.line, out := s.out, calls := c :: rest })

/-- R149, R23: no step changes a parameter. -/
def Obligations.ParametersAreConstant : Prop :=
  ∀ s t : State, step s = .next t → t.params = s.params

/-- The invariant holds at reset. -/
def Obligations.ResetMeetsTheInvariant : Prop := State.reset.Inv

/-- Every step keeps the invariant: the spaces stay in canonical form inside their buffers, the error register fits its
width, and a delivered frame, index or length is one the spec allows. -/
def Obligations.StepKeepsTheInvariant : Prop :=
  ∀ s t : State, s.Inv → step s = .next t → t.Inv

/-- R144, R159: while the caller keeps its contract no number of steps stops the machine, and the contract stays kept.
(The session, that a step makes its first call, and the idle steps beyond its end are the model's choice, log 3.) -/
def Obligations.ContractedSessionNeverStops : Prop :=
  ∀ (s : State), s.KeepsContract → ∀ k : Nat, ∃ t, Host.Core.run core k s = .next t ∧ t.KeepsContract ∧
    t.calls = s.calls.drop k

/-! ## Replies -/

/-- R122 (its terminator is decision D17, log 16): `V` causes the firmware string and one 0x0D to be sent. -/
def Obligations.VersionReplyIsTheStringAndCr : Prop :=
  ∀ (body : List Nibble) (s : State), ∃ t, exec (.versionV body) s = .next t ∧
    t.delivery = some (.send (s.params.fwVersionString ++ [0x0D]))

/-- R123 (its format is decisions D16 and D17, log 16): `E` causes the register in K uppercase digits, most significant
first, and one 0x0D to be sent. -/
def Obligations.ErrorReplyIsFixedWidthHex : Prop :=
  ∀ (body : List Nibble) (s : State), ∃ t bytes, exec (.errorE body) s = .next t ∧ t.delivery = some (.send bytes) ∧
    bytes.length = (s.params.errRegBits + 3) / 4 + 1 ∧
    (∀ k, k < (s.params.errRegBits + 3) / 4 →
      bytes[(s.params.errRegBits + 3) / 4 - 1 - k]? = some (digit (s.errorRegister / 16 ^ k % 16))) ∧
    bytes[(s.params.errRegBits + 3) / 4]? = some 0x0D

/-- R124 (D18), R126, R128: what the caller does with each result: a command goes to its consumer, an encoded frame is
sent whole, an error causes nothing. -/
def Obligations.ResultsReachTheirConsumers : Prop :=
  (∀ (s : State) (k : ErrorKind), s.result = some (.err k) → s.delivery = none) ∧
  (∀ (s : State) (n : Nat), s.result = some (.ok (.length n)) →
    ∃ bytes, s.delivery = some (.send bytes) ∧ bytes.length = n ∧
      ∀ a, a < n → bytes[a]? = some (Memory.read s.out.bytes a)) ∧
  (∀ (s : State) (c : Command), s.result = some (.ok (.command c)) →
    match c with
    | .opened => s.delivery = some .channelEnable
    | .closed => s.delivery = some .channelDisable
    | .setBitrate i => s.delivery = some (.setBitrate i)
    | .setSilentMode b => s.delivery = some (.setSilentMode b)
    | .setAutoRetransmit b => s.delivery = some (.setAutoretransmit b)
    | .queryVersion => ∃ bytes, s.delivery = some (.send bytes)
    | .queryErrorRegister => ∃ bytes, s.delivery = some (.send bytes)
    | .transmit F => s.delivery = some (.transmit F))
end

