-- ==== Sys2Proof/Laws/Operands.lean ====
section
/-! SUPPORT. One lemma per operand function: the nibble conversions, identifier and data fields, and the message. -/

namespace Sys2Proof.Machine

/-! ## The nibble conversions -/

theorem nibble_forall {P : Nibble → Prop} (h : ∀ k : Fin 16, P (BitVec.ofFin k)) (v : Nibble) : P v := h v.toFin

/-- R68: a written digit is read back. -/
@[simp] theorem hex2nib_nib2hex (v : Nibble) : hex2nib (nib2hex v) = .ok v := by
  revert v; exact nibble_forall (by decide)

theorem nib2hex_ne_unlisted (v : Nibble) : nib2hex v ≠ 0 := by
  revert v; exact nibble_forall (by decide)

/-- What HEX2NIB rejects, exactly (R67). -/
theorem hex2nib_err_iff (c : Byte) (k : ErrorKind) :
    hex2nib c = .err k ↔ k = .invalidCharacter ∧ ¬ ((0x30 ≤ c.toNat ∧ c.toNat ≤ 0x39) ∨
      (0x41 ≤ c.toNat ∧ c.toNat ≤ 0x46) ∨ (0x61 ≤ c.toNat ∧ c.toNat ≤ 0x66)) := by
  unfold hex2nib
  split
  · simp_all
  · split
    · simp_all
    · split
      · simp_all
      · simp_all [eq_comm]

/-- An accepted byte is the digit of its nibble, up to letter case (R68). -/
theorem nib2hex_of_hex2nib {c : Byte} {v : Nibble} (h : hex2nib c = .ok v) :
    nib2hex v = if 0x61 ≤ c.toNat ∧ c.toNat ≤ 0x66 then c - 0x20 else c := by
  unfold hex2nib at h
  split at h
  · cases h
    have hv : (BitVec.ofNat 4 (c.toNat - 0x30)).toNat = c.toNat - 0x30 := by rw [BitVec.toNat_ofNat]; omega
    rw [nib2hex, hv, if_pos (by omega), if_neg (by omega)]
    apply BitVec.eq_of_toNat_eq
    rw [BitVec.toNat_ofNat]
    omega
  · split at h
    · cases h
      have hv : (BitVec.ofNat 4 (c.toNat - 0x41 + 10)).toNat = c.toNat - 0x41 + 10 := by rw [BitVec.toNat_ofNat]; omega
      rw [nib2hex, hv, if_neg (by omega), if_neg (by omega)]
      apply BitVec.eq_of_toNat_eq
      rw [BitVec.toNat_ofNat]
      omega
    · split at h
      · cases h
        have hv : (BitVec.ofNat 4 (c.toNat - 0x61 + 10)).toNat = c.toNat - 0x61 + 10 := by
          rw [BitVec.toNat_ofNat]; omega
        rw [nib2hex, hv, if_neg (by omega), if_pos (by omega)]
        apply BitVec.eq_of_toNat_eq
        rw [BitVec.toNat_ofNat, BitVec.toNat_sub_of_le (by rw [BitVec.le_def]; simp; omega)]
        simp
        omega
      · cases h

/-! ## Identifier -/

theorem assembleId_append (xs : List Nibble) (n : Nibble) :
    assembleId (xs ++ [n]) = assembleId xs * 16 + n.toNat := by
  simp [assembleId]

theorem foldl_nibbles (xs : List Nibble) (a : Nat) :
    xs.foldl (fun acc n => acc * 16 + n.toNat) a = a * 16 ^ xs.length + assembleId xs := by
  induction xs generalizing a with
  | nil => simp [assembleId]
  | cons n rest ih =>
    simp only [List.foldl_cons, assembleId, List.length_cons]
    rw [ih, ih (0 * 16 + n.toNat)]
    ring

theorem assembleId_cons (n : Nibble) (xs : List Nibble) :
    assembleId (n :: xs) = n.toNat * 16 ^ xs.length + assembleId xs := by
  rw [assembleId, List.foldl_cons, foldl_nibbles]
  simp

/-- R54: `W` nibbles spell less than `16^W`. -/
theorem assembleId_lt (xs : List Nibble) : assembleId xs < 16 ^ xs.length := by
  induction xs with
  | nil => simp [assembleId]
  | cons n rest ih =>
    rw [assembleId_cons, List.length_cons, pow_succ]
    have : n.toNat < 16 := n.isLt
    nlinarith

@[simp] theorem idDigits_length (w : Nat) (id : IdWord) : (idDigits w id).length = w := by
  induction w with
  | zero => rfl
  | succ w ih => simp [idDigits, ih]

theorem idDigits_toNat (w : Nat) (id : IdWord) {k : Nat} (h : k < w) :
    ((idDigits w id)[k]'(by simpa using h)).toNat = id.toNat / 16 ^ (w - 1 - k) % 16 := by
  induction w generalizing k with
  | zero => omega
  | succ w ih =>
    cases k with
    | zero =>
      simp [idDigits, BitVec.extractLsb'_toNat, Nat.shiftRight_eq_div_pow, pow_mul]
    | succ k =>
      simp only [idDigits, List.getElem_cons_succ]
      rw [ih (by omega)]
      congr 3
      omega

/-- The digits of an identifier spell its low `4*W` bits (R54, R75). -/
theorem assembleId_idDigits (w : Nat) (id : IdWord) : assembleId (idDigits w id) = id.toNat % 16 ^ w := by
  induction w with
  | zero => simp [idDigits, assembleId, Nat.mod_one]
  | succ w ih =>
    rw [idDigits, assembleId_cons, ih, idDigits_length, pow_succ, Nat.mod_mul]
    simp [BitVec.extractLsb'_toNat, Nat.shiftRight_eq_div_pow, pow_mul]
    ring

theorem idMax_lt (idk : IdKind) : idMax idk < 16 ^ idWidth idk := by cases idk <;> decide

theorem idMax_lt_word (idk : IdKind) : idMax idk < 2 ^ 32 := by cases idk <;> decide

theorem idWidth_pos (idk : IdKind) : 3 ≤ idWidth idk ∧ idWidth idk ≤ 8 := by cases idk <;> decide

/-! ## Data -/

theorem joinByte_toNat (hi lo : Nibble) : (joinByte hi lo).toNat = 16 * hi.toNat + lo.toNat := by
  have hh : hi.toNat < 16 := hi.isLt
  have hl : lo.toNat < 2 ^ 4 := lo.isLt
  simp only [joinByte, BitVec.toNat_or, BitVec.toNat_shiftLeft, BitVec.toNat_setWidth]
  rw [Nat.mod_eq_of_lt (show hi.toNat < 2 ^ 8 by omega), Nat.mod_eq_of_lt (show lo.toNat < 2 ^ 8 by omega),
    Nat.mod_eq_of_lt (by rw [Nat.shiftLeft_eq]; omega), ← Nat.shiftLeft_add_eq_or_of_lt hl, Nat.shiftLeft_eq]
  omega

/-- R56: the two digits of a byte give the byte. -/
@[simp] theorem joinByte_digits (b : Byte) : joinByte (b.extractLsb' 4 4) (b.extractLsb' 0 4) = b := by
  have hb : b.toNat < 256 := b.isLt
  apply BitVec.eq_of_toNat_eq
  simp only [joinByte_toNat, BitVec.extractLsb'_toNat, Nat.shiftRight_eq_div_pow]
  omega

theorem joinByte_split (hi lo : Nibble) :
    (joinByte hi lo).extractLsb' 4 4 = hi ∧ (joinByte hi lo).extractLsb' 0 4 = lo := by
  have h := joinByte_toNat hi lo
  have hh : hi.toNat < 16 := hi.isLt
  have hl : lo.toNat < 16 := lo.isLt
  constructor <;> apply BitVec.eq_of_toNat_eq <;>
    rw [BitVec.extractLsb'_toNat, h, Nat.shiftRight_eq_div_pow] <;> omega

@[simp] theorem dataDigits_length (bs : List Byte) : (dataDigits bs).length = 2 * bs.length := by
  induction bs with
  | nil => rfl
  | cons b rest ih => simp [dataDigits, ih]; omega

@[simp] theorem pairBytes_dataDigits (bs : List Byte) : pairBytes (dataDigits bs) = bs := by
  induction bs with
  | nil => rfl
  | cons b rest ih => simp [dataDigits, pairBytes, ih]

theorem pairBytes_length (ns : List Nibble) : (pairBytes ns).length = ns.length / 2 := by
  induction ns using pairBytes.induct with
  | case1 hi lo rest ih => simp only [pairBytes, List.length_cons, ih]; omega
  | case2 ns h =>
    match ns with
    | [] => rfl
    | [_] => simp [pairBytes]
    | hi :: lo :: rest => exact absurd rfl (h hi lo rest)

theorem pairBytes_getElem? (ns : List Nibble) (j : Nat) (h : 2 * j + 1 < ns.length) :
    (pairBytes ns)[j]? = some (joinByte (ns.getD (2 * j) 0) (ns.getD (2 * j + 1) 0)) := by
  induction ns using pairBytes.induct generalizing j with
  | case1 hi lo rest ih =>
    cases j with
    | zero => simp [pairBytes]
    | succ j =>
      simp only [List.length_cons] at h
      rw [pairBytes, List.getElem?_cons_succ, ih j (by omega)]
      rw [show 2 * (j + 1) = 2 * j + 1 + 1 by omega]
      simp
  | case2 ns hn =>
    match ns with
    | [] => simp at h
    | [_] => simp at h
    | hi :: lo :: rest => exact absurd rfl (hn hi lo rest)

/-- Pairs taken apart again (R77 after R115). -/
theorem dataDigits_pairBytes (ns : List Nibble) (h : ns.length % 2 = 0) : dataDigits (pairBytes ns) = ns := by
  induction ns using pairBytes.induct with
  | case1 hi lo rest ih =>
    simp only [List.length_cons] at h
    simp [pairBytes, dataDigits, ih (by omega), (joinByte_split hi lo).1, (joinByte_split hi lo).2]
  | case2 ns hn =>
    match ns with
    | [] => rfl
    | [_] => simp at h
    | hi :: lo :: rest => exact absurd rfl (hn hi lo rest)

theorem dataDigits_getElem (bs : List Byte) (j : Nat) (h : j < bs.length) :
    (dataDigits bs)[2 * j]? = some (bs[j].extractLsb' 4 4) ∧
    (dataDigits bs)[2 * j + 1]? = some (bs[j].extractLsb' 0 4) := by
  induction bs generalizing j with
  | nil => simp at h
  | cons b rest ih =>
    cases j with
    | zero => simp [dataDigits]
    | succ j =>
      have := ih j (by simpa using h)
      rw [show 2 * (j + 1) = 2 * j + 1 + 1 by omega]
      simpa [dataDigits] using this

@[simp] theorem dataField_getElem (bs : List Byte) (j : Nat) (h : j < 8) : (dataField bs)[j] = bs.getD j 0 := by
  simp [dataField]

theorem payload_length {F : CanFrame} (h : F.dlc.toNat ≤ 8) : (payload F).length = F.dlc.toNat := by
  simp [payload, Nat.min_eq_left h]

theorem payload_getElem {F : CanFrame} {j : Nat} (h : j < F.dlc.toNat) (h8 : j < 8) :
    (payload F)[j]? = some F.data[j] := by
  simp [payload, h, h8]

/-- The carrier made of a payload of at most eight bytes has that payload. -/
theorem take_dataField {bs : List Byte} (h : bs.length ≤ 8) : (dataField bs).toList.take bs.length = bs := by
  apply List.ext_getElem
  · simp [Nat.min_eq_left h]
  · intro k h1 h2
    simp [dataField, h2]

/-- Two carriers with the same bytes below `dlc` have the same payload (R17). -/
theorem payload_congr {F G : CanFrame} (hd : F.dlc = G.dlc)
    (h : ∀ j : Fin 8, j.val < F.dlc.toNat → F.data[j] = G.data[j]) : payload F = payload G := by
  apply List.ext_getElem?
  intro k
  simp only [payload, List.getElem?_take, ← hd]
  split
  · rename_i hk
    by_cases h8 : k < 8
    · have := h ⟨k, h8⟩ hk
      simpa [h8] using this
    · simp [h8]
  · rfl

@[simp] theorem payload_canonicalFrame (F : CanFrame) : payload (canonicalFrame F) = payload F := by
  apply List.ext_getElem?
  intro k
  by_cases hk : k < F.dlc.toNat
  · by_cases h8 : k < 8
    · simp [payload, canonicalFrame, hk, h8]
    · simp [payload, canonicalFrame, h8]
  · simp [payload, canonicalFrame, hk]

@[simp] theorem canonicalFrame_idem (F : CanFrame) : canonicalFrame (canonicalFrame F) = canonicalFrame F := by
  have := payload_canonicalFrame F
  simp only [canonicalFrame] at *
  rw [this]

/-! ## The message -/

theorem frameDigits_length {F : CanFrame} (h : F.dlc.toNat ≤ 8) :
    (frameDigits F).length = idWidth F.idKind + 1 + 2 * F.dlc.toNat := by
  simp [frameDigits, payload_length h]; omega

/-- R79. -/
theorem message_length {F : CanFrame} (h : F.dlc.toNat ≤ 8) : (message F).length = messageLength F := by
  simp [message, frameDigits_length h, messageLength]; omega

theorem typeChar_ne_unlisted (k : FrameKind) (i : IdKind) : typeChar k i ≠ 0 := by
  cases k <;> cases i <;> decide

/-- No byte of a message is the unlisted byte. -/
theorem message_listed (F : CanFrame) : ∀ b ∈ message F, b ≠ (0 : Byte) := by
  intro b hb
  simp only [message, List.mem_append, List.mem_cons, List.mem_map, List.not_mem_nil, or_false] at hb
  rcases hb with (rfl | ⟨v, _, rfl⟩) | rfl
  · exact typeChar_ne_unlisted _ _
  · exact nib2hex_ne_unlisted v
  · decide

/-! ## Checks -/

/-- The two invariants of R17 that can be broken. -/
theorem frameWellFormed_iff (F : CanFrame) :
    frameWellFormed F = true ↔ F.id.toNat ≤ idMax F.idKind ∧ F.dlc.toNat ≤ 8 := by
  rw [frameWellFormed, Bool.and_eq_true]
  exact and_congr decide_eq_true_iff decide_eq_true_iff

/-- What the two validations of ENCODE answer, in their order (R71 to R73). -/
theorem frameError_cases (F : CanFrame) :
    (frameError F = some .identifierOutOfRange ∧ idMax F.idKind < F.id.toNat) ∨
    (frameError F = some .invalidDlc ∧ F.id.toNat ≤ idMax F.idKind ∧ 8 < F.dlc.toNat) ∨
    (frameError F = none ∧ F.id.toNat ≤ idMax F.idKind ∧ F.dlc.toNat ≤ 8) := by
  unfold frameError idInRange dlcInRange dlcMax
  by_cases h1 : F.id.toNat ≤ idMax F.idKind
  · by_cases h2 : F.dlc.toNat ≤ 8
    · simp [h1, h2]
    · simp [h1, h2]; omega
  · simp [h1]; omega

/-- What TRANSMIT answers, in the order of its checks (R109). -/
theorem transmit_cases (kind : FrameKind) (idk : IdKind) (body : List Nibble) :
    (transmit kind idk body = .err .truncatedInput ∧ body.length < idWidth idk) ∨
    (transmit kind idk body = .err .identifierOutOfRange ∧ idWidth idk ≤ body.length ∧
      idMax idk < assembleId (body.take (idWidth idk))) ∨
    (transmit kind idk body = .err .truncatedInput ∧ body.length = idWidth idk ∧
      assembleId (body.take (idWidth idk)) ≤ idMax idk) ∨
    (transmit kind idk body = .err .invalidDlc ∧ idWidth idk + 1 ≤ body.length ∧
      assembleId (body.take (idWidth idk)) ≤ idMax idk ∧ 8 < (bodyAt body (idWidth idk)).toNat) ∨
    (transmit kind idk body = .err .truncatedInput ∧ idWidth idk + 1 ≤ body.length ∧
      assembleId (body.take (idWidth idk)) ≤ idMax idk ∧ (bodyAt body (idWidth idk)).toNat ≤ 8 ∧
      body.length < idWidth idk + 1 + 2 * (bodyAt body (idWidth idk)).toNat) ∨
    (transmit kind idk body = .ok (.transmit (bodyFrame kind idk body)) ∧
      assembleId (body.take (idWidth idk)) ≤ idMax idk ∧ (bodyAt body (idWidth idk)).toNat ≤ 8 ∧
      idWidth idk + 1 + 2 * (bodyAt body (idWidth idk)).toNat ≤ body.length) := by
  unfold transmit dlcMax
  split
  · simp_all
  · split
    · simp_all
    · split
      · right; right; left; refine ⟨rfl, ?_, ?_⟩ <;> omega
      · split
        · right; right; right; left; refine ⟨rfl, ?_, ?_, ?_⟩ <;> omega
        · split
          · right; right; right; right; left; refine ⟨rfl, ?_, ?_, ?_, ?_⟩ <;> omega
          · right; right; right; right; right; refine ⟨rfl, ?_, ?_, ?_⟩ <;> omega

/-- Every frame a body spells within the checks is well-formed (R120). -/
theorem bodyFrame_wellFormed {kind : FrameKind} {idk : IdKind} {body : List Nibble}
    (h1 : assembleId (body.take (idWidth idk)) ≤ idMax idk) (h2 : (bodyAt body (idWidth idk)).toNat ≤ 8) :
    frameWellFormed (bodyFrame kind idk body) = true := by
  have := idMax_lt_word idk
  rw [frameWellFormed_iff]
  refine ⟨?_, h2⟩
  show (BitVec.ofNat 32 (assembleId (body.take (idWidth idk)))).toNat ≤ idMax idk
  rw [BitVec.toNat_ofNat, Nat.mod_eq_of_lt (by omega)]
  exact h1

/-! ## Frames and the bodies that spell them -/

/-- The digits of an assembled identifier are the digits it was assembled from (R54, R75). -/
theorem idDigits_assembleId (xs : List Nibble) (h : xs.length ≤ 8) :
    idDigits xs.length (BitVec.ofNat 32 (assembleId xs)) = xs := by
  have key : ∀ ys : List Nibble, ys.length ≤ 8 → ∀ e : IdWord, e.toNat % 16 ^ ys.length = assembleId ys → idDigits ys.length e = ys := by
    intro ys
    induction ys with
    | nil => intros; rfl
    | cons n rest ih =>
      intro hl e he
      simp only [List.length_cons] at *
      rw [assembleId_cons, pow_succ, Nat.mod_mul] at he
      have h1 := assembleId_lt rest
      have hn : n.toNat < 16 := n.isLt
      have hpos : 0 < 16 ^ rest.length := by positivity
      have hr : e.toNat % 16 ^ rest.length = assembleId rest := by
        have := congrArg (· % 16 ^ rest.length) he
        simpa [Nat.add_mul_mod_self_left, Nat.add_mul_mod_self_right, Nat.mod_eq_of_lt h1, Nat.mul_add_mod_self_right] using this
      have hq : e.toNat / 16 ^ rest.length % 16 = n.toNat := by
        rw [hr, Nat.add_comm, Nat.mul_comm] at he
        have he := Nat.add_right_cancel he
        exact Nat.eq_of_mul_eq_mul_right hpos he
      rw [idDigits, ih (by omega) e hr]
      congr 1
      apply BitVec.eq_of_toNat_eq
      rw [BitVec.extractLsb'_toNat, Nat.shiftRight_eq_div_pow, ← hq]
      simp [pow_mul]
  apply key xs h
  have h1 := assembleId_lt xs
  have h2 : 16 ^ xs.length ≤ 16 ^ 8 := Nat.pow_le_pow_right (by decide) h
  have h3 : 16 ^ xs.length ∣ 2 ^ 32 := by
    rw [show (2:Nat)^32 = 16 ^ 8 by norm_num]; exact Nat.pow_dvd_pow 16 h
  rw [BitVec.toNat_ofNat, Nat.mod_eq_of_lt (show assembleId xs < 2^32 by omega), Nat.mod_eq_of_lt h1]

/-- The digits of a frame that a body spells are the needed nibbles of the body (R120, its converse). -/
theorem frameDigits_bodyFrame {k : FrameKind} {idk : IdKind} {body : List Nibble}
    (h2 : (bodyAt body (idWidth idk)).toNat ≤ 8)
    (h3 : idWidth idk + 1 + 2 * (bodyAt body (idWidth idk)).toNat ≤ body.length) :
    frameDigits (bodyFrame k idk body) = body.take (idWidth idk + 1 + 2 * (bodyAt body (idWidth idk)).toNat) := by
  have hw := idWidth_pos idk
  have hlen : (body.take (idWidth idk)).length = idWidth idk := by simp; omega
  have hbd : (bodyData (idWidth idk) body).length = (bodyAt body (idWidth idk)).toNat := by
    rw [bodyData, pairBytes_length]; simp; omega
  have hp : payload (bodyFrame k idk body) = bodyData (idWidth idk) body := by
    simp only [payload, bodyFrame]
    rw [← hbd, take_dataField (by omega)]
  have hid : idDigits (idWidth idk) (bodyFrame k idk body).id = body.take (idWidth idk) := by
    have := idDigits_assembleId (body.take (idWidth idk)) (by omega)
    rw [hlen] at this; exact this
  rw [frameDigits, hp]
  show idDigits (idWidth idk) (bodyFrame k idk body).id ++ bodyAt body (idWidth idk) :: _ = _
  rw [hid, bodyData, dataDigits_pairBytes _ (by simp; omega)]
  have hd : body.drop (idWidth idk) = bodyAt body (idWidth idk) :: body.drop (idWidth idk + 1) := by
    rw [List.drop_eq_getElem_cons (by omega)]
    simp [bodyAt, List.getD_eq_getElem?_getD, List.getElem?_eq_getElem (show idWidth idk < body.length by omega)]
  rw [show idWidth idk + 1 + 2 * (bodyAt body (idWidth idk)).toNat = idWidth idk + (2 * (bodyAt body (idWidth idk)).toNat + 1) by omega,
    List.take_add, hd, List.take_succ_cons]

/-- The digits of a well-formed frame spell that frame (R120). -/
theorem transmit_frameDigits (F : CanFrame) (h1 : F.id.toNat ≤ idMax F.idKind) (h2 : F.dlc.toNat ≤ 8) :
    transmit F.frameKind F.idKind (frameDigits F) = .ok (.transmit (canonicalFrame F)) := by
  have ht : (frameDigits F).take (idWidth F.idKind) = idDigits (idWidth F.idKind) F.id := by
    rw [frameDigits, List.take_append_of_le_length (by simp)]
    simp
  have hb : bodyAt (frameDigits F) (idWidth F.idKind) = F.dlc := by simp [bodyAt, frameDigits]
  have hd : (frameDigits F).drop (idWidth F.idKind + 1) = dataDigits (payload F) := by
    rw [frameDigits, ← List.drop_drop]
    simp
  have ha : assembleId (idDigits (idWidth F.idKind) F.id) = F.id.toNat := by
    have := idMax_lt F.idKind
    rw [assembleId_idDigits, Nat.mod_eq_of_lt (by omega)]
  have hl := frameDigits_length h2
  have hbf : bodyFrame F.frameKind F.idKind (frameDigits F) = canonicalFrame F := by
    simp only [bodyFrame, canonicalFrame, bodyData, ht, hb, hd, ha]
    rw [List.take_of_length_le (by simp [payload_length h2]), pairBytes_dataDigits]
    simp
  simp only [transmit, ht, ha, hb, hl, hbf, dlcMax]
  rw [if_neg (by omega), if_neg (by omega), if_neg (by omega), if_neg (by omega), if_neg (by omega)]

end Sys2Proof.Machine
end

