-- ==== Sys2Proof/Laws/Decode.lean ====
section
/-! SUPPORT. One lemma per function of the decoder: what it accepts, what it rejects, and by which name. -/

namespace Sys2Proof

open Sys2Proof.Machine

/-! ## Leading bytes -/

/-- What Phase 1 recognises (R58): one disjunct per row. -/
theorem leadingByte_cases {c : Byte} {mk : List Nibble → Instr} (h : leadingByte c = some mk) :
    (c = charO ∧ mk = .openO) ∨
    (c = charC ∧ mk = .closeC) ∨
    (c = charS ∧ mk = .setBitrateS) ∨
    (c = charUpperM ∧ mk = .silentUpperM) ∨
    (c = charLowerM ∧ mk = .silentLowerM) ∨
    (c = charUpperA ∧ mk = .autoUpperA) ∨
    (c = charLowerA ∧ mk = .autoLowerA) ∨
    (c = charV ∧ mk = .versionV) ∨
    (c = charE ∧ mk = .errorE) ∨
    (c = charLowerT ∧ mk = .txStdData) ∨
    (c = charUpperT ∧ mk = .txExtData) ∨
    (c = charLowerR ∧ mk = .txStdRemote) ∨
    (c = charUpperR ∧ mk = .txExtRemote) := by
  unfold leadingByte at h
  by_cases e : c = charO
  · rw [if_pos e] at h
    exact .inl ⟨e, (Option.some.inj h).symm⟩
  rw [if_neg e] at h
  clear e
  refine .inr ?_
  by_cases e : c = charC
  · rw [if_pos e] at h
    exact .inl ⟨e, (Option.some.inj h).symm⟩
  rw [if_neg e] at h
  clear e
  refine .inr ?_
  by_cases e : c = charS
  · rw [if_pos e] at h
    exact .inl ⟨e, (Option.some.inj h).symm⟩
  rw [if_neg e] at h
  clear e
  refine .inr ?_
  by_cases e : c = charUpperM
  · rw [if_pos e] at h
    exact .inl ⟨e, (Option.some.inj h).symm⟩
  rw [if_neg e] at h
  clear e
  refine .inr ?_
  by_cases e : c = charLowerM
  · rw [if_pos e] at h
    exact .inl ⟨e, (Option.some.inj h).symm⟩
  rw [if_neg e] at h
  clear e
  refine .inr ?_
  by_cases e : c = charUpperA
  · rw [if_pos e] at h
    exact .inl ⟨e, (Option.some.inj h).symm⟩
  rw [if_neg e] at h
  clear e
  refine .inr ?_
  by_cases e : c = charLowerA
  · rw [if_pos e] at h
    exact .inl ⟨e, (Option.some.inj h).symm⟩
  rw [if_neg e] at h
  clear e
  refine .inr ?_
  by_cases e : c = charV
  · rw [if_pos e] at h
    exact .inl ⟨e, (Option.some.inj h).symm⟩
  rw [if_neg e] at h
  clear e
  refine .inr ?_
  by_cases e : c = charE
  · rw [if_pos e] at h
    exact .inl ⟨e, (Option.some.inj h).symm⟩
  rw [if_neg e] at h
  clear e
  refine .inr ?_
  by_cases e : c = charLowerT
  · rw [if_pos e] at h
    exact .inl ⟨e, (Option.some.inj h).symm⟩
  rw [if_neg e] at h
  clear e
  refine .inr ?_
  by_cases e : c = charUpperT
  · rw [if_pos e] at h
    exact .inl ⟨e, (Option.some.inj h).symm⟩
  rw [if_neg e] at h
  clear e
  refine .inr ?_
  by_cases e : c = charLowerR
  · rw [if_pos e] at h
    exact .inl ⟨e, (Option.some.inj h).symm⟩
  rw [if_neg e] at h
  clear e
  refine .inr ?_
  by_cases e : c = charUpperR
  · rw [if_pos e] at h
    exact ⟨e, (Option.some.inj h).symm⟩
  rw [if_neg e] at h
  cases h

theorem ite_some_eq_none {α : Type} {p : Prop} [Decidable p] {a : α} {x : Option α} :
    (if p then some a else x) = none ↔ ¬ p ∧ x = none := by
  split <;> simp [*]

/-- What Phase 1 does not recognise (R60). -/
theorem leadingByte_none_iff (c : Byte) : leadingByte c = none ↔
    c ≠ charO ∧ c ≠ charC ∧ c ≠ charS ∧ c ≠ charUpperM ∧ c ≠ charLowerM ∧ c ≠ charUpperA ∧ c ≠ charLowerA ∧
    c ≠ charV ∧ c ≠ charE ∧ c ≠ charLowerT ∧ c ≠ charUpperT ∧ c ≠ charLowerR ∧ c ≠ charUpperR := by
  simp only [leadingByte, ite_some_eq_none, and_true, ne_eq]

@[simp] theorem leadingByte_charO : leadingByte charO = some .openO := rfl
@[simp] theorem leadingByte_charC : leadingByte charC = some .closeC := rfl
@[simp] theorem leadingByte_charS : leadingByte charS = some .setBitrateS := rfl
@[simp] theorem leadingByte_charUpperM : leadingByte charUpperM = some .silentUpperM := rfl
@[simp] theorem leadingByte_charLowerM : leadingByte charLowerM = some .silentLowerM := rfl
@[simp] theorem leadingByte_charUpperA : leadingByte charUpperA = some .autoUpperA := rfl
@[simp] theorem leadingByte_charLowerA : leadingByte charLowerA = some .autoLowerA := rfl
@[simp] theorem leadingByte_charV : leadingByte charV = some .versionV := rfl
@[simp] theorem leadingByte_charE : leadingByte charE = some .errorE := rfl
@[simp] theorem leadingByte_charLowerT : leadingByte charLowerT = some .txStdData := rfl
@[simp] theorem leadingByte_charUpperT : leadingByte charUpperT = some .txExtData := rfl
@[simp] theorem leadingByte_charLowerR : leadingByte charLowerR = some .txStdRemote := rfl
@[simp] theorem leadingByte_charUpperR : leadingByte charUpperR = some .txExtRemote := rfl

/-! ## Phase 2 -/

/-- Phase 2 reads back what the encoder writes. -/
@[simp] theorem hexBody_map_nib2hex (body : List Nibble) : hexBody (body.map nib2hex) = .ok body := by
  induction body with
  | nil => rfl
  | cons v rest ih => simp [hexBody, ih]

/-- The only failure of Phase 2, and when it happens (R90). -/
theorem hexBody_err_iff (bs : List Byte) (k : ErrorKind) :
    hexBody bs = .err k ↔ k = .invalidCharacter ∧ ∃ c ∈ bs, hex2nib c = .err .invalidCharacter := by
  induction bs with
  | nil => simp [hexBody]
  | cons c rest ih =>
    rw [hexBody]
    cases hc : hex2nib c with
    | err e =>
      have he : e = .invalidCharacter := ((hex2nib_err_iff c e).1 hc).1
      subst he
      simp [hc, eq_comm]
    | ok v =>
      cases hr : hexBody rest with
      | err e =>
        have := (ih).1
        rw [hr] at ih
        simp only [Result.err.injEq, List.mem_cons, exists_eq_or_imp, hc, reduceCtorEq, false_or]
        simpa using ih
      | ok vs =>
        rw [hr] at ih
        simp only [reduceCtorEq, List.mem_cons, exists_eq_or_imp, hc, false_or, false_iff]
        simpa using ih

/-- A converted body: as many nibbles as bytes, each the value of its byte. -/
theorem hexBody_ok {bs : List Byte} {body : List Nibble} (h : hexBody bs = .ok body) :
    body.length = bs.length ∧ ∀ k (h1 : k < bs.length) (h2 : k < body.length), hex2nib bs[k] = .ok body[k] := by
  induction bs generalizing body with
  | nil => cases h; simp
  | cons c rest ih =>
    rw [hexBody] at h
    split at h
    · cases h
    · rename_i v hv
      split at h
      · cases h
      · rename_i vs hvs
        cases h
        obtain ⟨hl, hk⟩ := ih hvs
        refine ⟨by simp [hl], fun k h1 h2 => ?_⟩
        cases k with
        | zero => exact hv
        | succ k => exact hk k (by simpa using h1) (by simpa using h2)

/-- Phase 2 of a body in two parts. -/
theorem hexBody_append {xs ys : List Byte} {b1 b2 : List Nibble} (h1 : hexBody xs = .ok b1) (h2 : hexBody ys = .ok b2) :
    hexBody (xs ++ ys) = .ok (b1 ++ b2) := by
  induction xs generalizing b1 with
  | nil => cases h1; simpa using h2
  | cons c rest ih =>
    rw [hexBody] at h1
    split at h1
    · cases h1
    · rename_i v hv
      split at h1
      · cases h1
      · rename_i vs hvs
        cases h1
        simp [hexBody, hv, ih hvs]

/-- The body's digits, rewritten, are the body with its letters uppercased (R68). -/
theorem map_nib2hex_hexBody {bs : List Byte} {body : List Nibble} (h : hexBody bs = .ok body) :
    body.map nib2hex = bs.map fun c => if 0x61 ≤ c.toNat ∧ c.toNat ≤ 0x66 then c - 0x20 else c := by
  obtain ⟨hl, hk⟩ := hexBody_ok h
  apply List.ext_getElem (by simp [hl])
  intro k h1 h2
  simp only [List.getElem_map]
  exact nib2hex_of_hex2nib (hk k _ _)

/-! ## Lines -/

/-- Everything DECODE's common part can answer (R88 to R91). -/
theorem decodeLine_cases (bytes : List Byte) :
    (bytes = [] ∧ decodeLine bytes = .err .truncatedInput) ∨
    (∃ c0 rest, bytes = c0 :: rest ∧ leadingByte c0 = none ∧ decodeLine bytes = .err .unknownCommand) ∨
    (∃ c0 rest mk, bytes = c0 :: rest ∧ leadingByte c0 = some mk ∧
      (∃ c ∈ rest, hex2nib c = .err .invalidCharacter) ∧ decodeLine bytes = .err .invalidCharacter) ∨
    (∃ c0 rest mk body, bytes = c0 :: rest ∧ leadingByte c0 = some mk ∧ hexBody rest = .ok body ∧
      decodeLine bytes = .ok (mk body)) := by
  cases bytes with
  | nil => exact .inl ⟨rfl, rfl⟩
  | cons c0 rest =>
    right
    cases hm : leadingByte c0 with
    | none => exact .inl ⟨c0, rest, rfl, hm, by simp [decodeLine, hm]⟩
    | some mk =>
      right
      cases hb : hexBody rest with
      | err k =>
        obtain ⟨rfl, hc⟩ := (hexBody_err_iff rest k).1 hb
        exact .inl ⟨c0, rest, mk, rfl, hm, hc, by simp [decodeLine, hm, hb]⟩
      | ok body => exact .inr ⟨c0, rest, mk, body, rfl, hm, hb, by simp [decodeLine, hm, hb]⟩

/-! ## HEX2NIB and NIB2HEX rows -/

/-- A decoded character is the row's own byte. -/
theorem decodeChar_ok {c : Byte} {i : Instr} (h : decodeChar c = .ok i) : encode i = .char c := by
  unfold decodeChar at h
  split at h <;> first
    | (cases h; rename_i hc; simp only [encode, CallImage.char.injEq]; apply BitVec.eq_of_toNat_eq; rw [hc]; rfl)
    | cases h

/-- The decoder rejects a character exactly when HEX2NIB does (R67). -/
theorem decodeChar_err {c : Byte} {k : ErrorKind} (h : decodeChar c = .err k) :
    k = .invalidCharacter ∧ hex2nib c = .err .invalidCharacter := by
  unfold decodeChar at h
  split at h <;> first
    | (cases h; done)
    | skip
  cases h
  refine ⟨rfl, (hex2nib_err_iff c _).2 ⟨rfl, ?_⟩⟩
  simp only [imp_false] at *
  omega

theorem encode_decodeNibble (v : Nibble) : encode (decodeNibble v) = .nibble v := by
  revert v; exact nibble_forall (by decide)

theorem encode_decodeFrame (F : CanFrame) : encode (decodeFrame F) = .frame F := by
  obtain ⟨k, i, id, dlc, data⟩ := F
  cases k <;> cases i <;> rfl

end Sys2Proof
end

