-- ==== Sys2Proof/Laws/Memory.lean ====
section
/-! SUPPORT. The laws of memory: read after write, and that every operation keeps the canonical form. -/

namespace Sys2Proof.Machine

@[simp] theorem Memory.read_nil (a : Nat) : Memory.read [] a = unlistedByte := rfl

theorem Memory.read_unlisted {m : Memory} {a : Nat} (h : ∀ c ∈ m, c.1 ≠ a) : Memory.read m a = unlistedByte := by
  induction m with
  | nil => rfl
  | cons c rest ih =>
    obtain ⟨k, w⟩ := c
    have hk : k ≠ a := h _ (List.mem_cons_self ..)
    simp only [Memory.read, if_neg hk]
    exact ih fun c hc => h c (List.mem_cons_of_mem _ hc)

theorem Memory.mem_write {m : Memory} {a : Nat} {v : Byte} {c : Host.Cell} (h : c ∈ Memory.write m a v) :
    c ∈ m ∨ (c = (a, v) ∧ v ≠ unlistedByte) := by
  induction m with
  | nil =>
    simp only [Memory.write] at h
    split at h <;> simp_all
  | cons x rest ih =>
    obtain ⟨k, w⟩ := x
    simp only [Memory.write] at h
    split at h
    · split at h
      · exact .inl h
      · rcases List.mem_cons.1 h with h | h
        · exact .inr ⟨h, ‹_›⟩
        · exact .inl h
    · split at h
      · split at h
        · exact .inl (List.mem_cons_of_mem _ h)
        · rcases List.mem_cons.1 h with h | h
          · exact .inr ⟨h, ‹_›⟩
          · exact .inl (List.mem_cons_of_mem _ h)
      · rcases List.mem_cons.1 h with h | h
        · exact .inl (h ▸ List.mem_cons_self ..)
        · exact (ih h).imp (List.mem_cons_of_mem _) id

/-- A write keeps the canonical form. -/
theorem Memory.write_wf {m : Memory} (h : Memory.wf m) (a : Nat) (v : Byte) : Memory.wf (Memory.write m a v) := by
  refine ⟨?_, fun c hc => (Memory.mem_write hc).elim (h.2 c) fun e => by rw [e.1]; exact e.2⟩
  induction m with
  | nil => simp only [Memory.write]; split <;> simp
  | cons x rest ih =>
    obtain ⟨k, w⟩ := x
    have hp := List.pairwise_cons.1 h.1
    have hr : Memory.wf rest := ⟨hp.2, fun c hc => h.2 c (List.mem_cons_of_mem _ hc)⟩
    simp only [Memory.write]
    split
    · split
      · exact h.1
      · refine List.pairwise_cons.2 ⟨fun c hc => ?_, h.1⟩
        rcases List.mem_cons.1 hc with e | hc
        · rw [e]; assumption
        · exact Nat.lt_trans (by assumption) (hp.1 c hc)
    · split
      · split
        · exact hp.2
        · exact List.pairwise_cons.2 ⟨fun c hc => by subst a; exact hp.1 c hc, hp.2⟩
      · refine List.pairwise_cons.2 ⟨fun c hc => ?_, ih hr⟩
        rcases Memory.mem_write hc with hc | ⟨e, _⟩
        · exact hp.1 c hc
        · rw [e]; show k < a; omega

/-- What a write leaves at its own address. -/
theorem Memory.read_write_same {m : Memory} (h : Memory.wf m) (a : Nat) (v : Byte) :
    Memory.read (Memory.write m a v) a = v := by
  induction m with
  | nil =>
    simp only [Memory.write]
    split <;> simp_all [Memory.read]
  | cons x rest ih =>
    obtain ⟨k, w⟩ := x
    have hp := List.pairwise_cons.1 h.1
    have hr : Memory.wf rest := ⟨hp.2, fun c hc => h.2 c (List.mem_cons_of_mem _ hc)⟩
    simp only [Memory.write]
    split
    · split
      · subst v
        refine Memory.read_unlisted fun c hc => ?_
        rcases List.mem_cons.1 hc with e | hc
        · rw [e]; show k ≠ a; omega
        · have : k < c.1 := hp.1 c hc
          omega
      · simp [Memory.read]
    · split
      · split
        · subst v a
          exact Memory.read_unlisted fun c hc => by have : k < c.1 := hp.1 c hc; omega
        · simp [Memory.read]
      · rw [Memory.read, if_neg (by omega)]
        exact ih hr

/-- What a write of a listed byte leaves at its own address, in any memory at all. -/
theorem Memory.read_write_listed (m : Memory) (a : Nat) {v : Byte} (hv : v ≠ unlistedByte) :
    Memory.read (Memory.write m a v) a = v := by
  induction m with
  | nil => simp [Memory.write, Memory.read, hv]
  | cons x rest ih =>
    obtain ⟨k, w⟩ := x
    simp only [Memory.write, if_neg hv]
    split
    · simp [Memory.read]
    · split
      · simp [Memory.read]
      · rw [Memory.read, if_neg (by omega)]
        exact ih

/-- A write leaves every other address alone. -/
theorem Memory.read_write_other (m : Memory) {a b : Nat} (v : Byte) (h : b ≠ a) :
    Memory.read (Memory.write m a v) b = Memory.read m b := by
  induction m with
  | nil => simp only [Memory.write]; split <;> simp [Memory.read, Ne.symm h]
  | cons x rest ih =>
    obtain ⟨k, w⟩ := x
    simp only [Memory.write]
    split
    · split
      · rfl
      · rw [Memory.read, if_neg (Ne.symm h)]
    · split
      · subst a
        have hk : k ≠ b := Ne.symm h
        split <;> simp [Memory.read, hk]
      · simp only [Memory.read, ih]

theorem Memory.writeBytes_wf {m : Memory} (h : Memory.wf m) (i : Nat) (bs : List Byte) :
    Memory.wf (Memory.writeBytes m i bs) := by
  induction bs generalizing m i with
  | nil => exact h
  | cons b rest ih => exact ih (Memory.write_wf h i b) (i + 1)

/-- Outside the written range nothing changes. -/
theorem Memory.read_writeBytes_outside (m : Memory) (i : Nat) (bs : List Byte) {a : Nat}
    (h : a < i ∨ i + bs.length ≤ a) : Memory.read (Memory.writeBytes m i bs) a = Memory.read m a := by
  induction bs generalizing m i with
  | nil => rfl
  | cons b rest ih =>
    simp only [List.length_cons] at h
    rw [Memory.writeBytes, ih _ _ (by omega), Memory.read_write_other _ _ (by omega)]

/-- Inside the written range the bytes stand in order. -/
theorem Memory.read_writeBytes_inside {m : Memory} (hm : Memory.wf m) (i : Nat) (bs : List Byte) {k : Nat}
    (h : k < bs.length) : Memory.read (Memory.writeBytes m i bs) (i + k) = bs[k] := by
  induction bs generalizing m i k with
  | nil => cases h
  | cons b rest ih =>
    rw [Memory.writeBytes]
    cases k with
    | zero =>
      rw [Memory.read_writeBytes_outside _ (i + 1) _ (.inl (by omega)), Nat.add_zero, Memory.read_write_same hm]
      rfl
    | succ k =>
      have := ih (Memory.write_wf hm i b) (i + 1) (k := k) (by simpa using h)
      rw [show i + (k + 1) = i + 1 + k by omega, this]
      rfl

/-- Inside the written range the bytes stand in order, in any memory at all, when none is the unlisted byte. -/
theorem Memory.read_writeBytes_listed (m : Memory) (i : Nat) (bs : List Byte) (hb : ∀ b ∈ bs, b ≠ unlistedByte)
    {k : Nat} (h : k < bs.length) : Memory.read (Memory.writeBytes m i bs) (i + k) = bs[k] := by
  induction bs generalizing m i k with
  | nil => cases h
  | cons b rest ih =>
    rw [Memory.writeBytes]
    cases k with
    | zero =>
      rw [Memory.read_writeBytes_outside _ (i + 1) _ (.inl (by omega)), Nat.add_zero,
        Memory.read_write_listed _ _ (hb b (List.mem_cons_self ..))]
      rfl
    | succ k =>
      have := ih (Memory.write m i b) (i + 1) (fun c hc => hb c (List.mem_cons_of_mem _ hc)) (k := k) (by simpa using h)
      rw [show i + (k + 1) = i + 1 + k by omega, this]
      rfl

/-- No write lists an address outside its range. -/
theorem Memory.mem_writeBytes {m : Memory} {i : Nat} {bs : List Byte} {c : Host.Cell}
    (h : c ∈ Memory.writeBytes m i bs) : c ∈ m ∨ (i ≤ c.1 ∧ c.1 < i + bs.length) := by
  induction bs generalizing m i with
  | nil => exact .inl h
  | cons b rest ih =>
    simp only [List.length_cons]
    rcases ih h with h | h
    · rcases Memory.mem_write h with h | ⟨e, _⟩
      · exact .inl h
      · right; rw [e]; show i ≤ i ∧ i < _; omega
    · right; omega

@[simp] theorem Memory.readBytes_length (m : Memory) (i n : Nat) : (Memory.readBytes m i n).length = n := by
  induction n generalizing i with
  | zero => rfl
  | succ n ih => simp [Memory.readBytes, ih]

@[simp] theorem Memory.readBytes_getElem (m : Memory) (i n k : Nat) (h : k < (Memory.readBytes m i n).length) :
    (Memory.readBytes m i n)[k] = Memory.read m (i + k) := by
  induction n generalizing i k with
  | zero => simp at h
  | succ n ih =>
    cases k with
    | zero => rfl
    | succ k =>
      simp only [Memory.readBytes, List.getElem_cons_succ]
      rw [ih]
      congr 1
      omega

/-- Reading depends on the addresses read alone. -/
theorem Memory.readBytes_congr {m m' : Memory} {i n : Nat}
    (h : ∀ a, i ≤ a → a < i + n → Memory.read m a = Memory.read m' a) :
    Memory.readBytes m i n = Memory.readBytes m' i n := by
  induction n generalizing i with
  | zero => rfl
  | succ n ih =>
    simp only [Memory.readBytes]
    rw [h i (Nat.le_refl i) (by omega), ih fun a h1 h2 => h a (by omega) (by omega)]

/-- Reading back what was written. -/
theorem Memory.readBytes_writeBytes {m : Memory} (hm : Memory.wf m) (i : Nat) (bs : List Byte) :
    Memory.readBytes (Memory.writeBytes m i bs) i bs.length = bs := by
  apply List.ext_getElem
  · simp
  · intro k h1 h2
    rw [Memory.readBytes_getElem, Memory.read_writeBytes_inside hm i bs h2]

theorem Memory.wf_nil : Memory.wf [] := ⟨List.Pairwise.nil, fun _ h => nomatch h⟩

/-- A buffer made of bytes reads as those bytes. -/
@[simp] theorem Buffer.readBytes_ofBytes (bs : List Byte) :
    Memory.readBytes (Buffer.ofBytes bs).bytes 0 bs.length = bs :=
  Memory.readBytes_writeBytes Memory.wf_nil 0 bs

end Sys2Proof.Machine
end

