-- ==== Sys2Proof/Laws/PerInstr.lean ====
section
/-! SUPPORT. The per-instruction family `RowMatch`: the encoding of an instruction carries the "match" value of its row in
spec/opcode_table.json (byte 0 of a line, byte 0 of the message an ENCODE row emits, the input byte or nibble). -/

namespace Sys2Proof.Laws

open Sys2Proof.Machine

/-- The value a call image shows where the table's `unit` column looks. -/
def imageByte : CallImage → Option Nat
  | .nibble v => some v.toNat
  | .char c => some c.toNat
  | .frame F => (message F).head?.map BitVec.toNat
  | .line bytes => bytes.head?.map BitVec.toNat

/-- The table's "match" column. -/
def rowMatch : Instr → Nat
  | .openO _ => 0x4F
  | .closeC _ => 0x43
  | .setBitrateS _ => 0x53
  | .silentUpperM _ => 0x4D
  | .silentLowerM _ => 0x6D
  | .autoUpperA _ => 0x41
  | .autoLowerA _ => 0x61
  | .versionV _ => 0x56
  | .errorE _ => 0x45
  | .txStdData _ => 0x74
  | .txExtData _ => 0x54
  | .txStdRemote _ => 0x72
  | .txExtRemote _ => 0x52
  | .encStdData _ _ _ => 0x74
  | .encExtData _ _ _ => 0x54
  | .encStdRemote _ _ _ => 0x72
  | .encExtRemote _ _ _ => 0x52
  | .hexDigit0 => 0x30
  | .hexDigit1 => 0x31
  | .hexDigit2 => 0x32
  | .hexDigit3 => 0x33
  | .hexDigit4 => 0x34
  | .hexDigit5 => 0x35
  | .hexDigit6 => 0x36
  | .hexDigit7 => 0x37
  | .hexDigit8 => 0x38
  | .hexDigit9 => 0x39
  | .hexUpperA => 0x41
  | .hexUpperB => 0x42
  | .hexUpperC => 0x43
  | .hexUpperD => 0x44
  | .hexUpperE => 0x45
  | .hexUpperF => 0x46
  | .hexLowerA => 0x61
  | .hexLowerB => 0x62
  | .hexLowerC => 0x63
  | .hexLowerD => 0x64
  | .hexLowerE => 0x65
  | .hexLowerF => 0x66
  | .nibble0 => 0x0
  | .nibble1 => 0x1
  | .nibble2 => 0x2
  | .nibble3 => 0x3
  | .nibble4 => 0x4
  | .nibble5 => 0x5
  | .nibble6 => 0x6
  | .nibble7 => 0x7
  | .nibble8 => 0x8
  | .nibble9 => 0x9
  | .nibble10 => 0xA
  | .nibble11 => 0xB
  | .nibble12 => 0xC
  | .nibble13 => 0xD
  | .nibble14 => 0xE
  | .nibble15 => 0xF

namespace RowMatch

def Statement (i : Instr) : Prop := imageByte (encode i) = some (rowMatch i)

theorem openO (body : List Nibble) : Statement (.openO body) := rfl
theorem closeC (body : List Nibble) : Statement (.closeC body) := rfl
theorem setBitrateS (body : List Nibble) : Statement (.setBitrateS body) := rfl
theorem silentUpperM (body : List Nibble) : Statement (.silentUpperM body) := rfl
theorem silentLowerM (body : List Nibble) : Statement (.silentLowerM body) := rfl
theorem autoUpperA (body : List Nibble) : Statement (.autoUpperA body) := rfl
theorem autoLowerA (body : List Nibble) : Statement (.autoLowerA body) := rfl
theorem versionV (body : List Nibble) : Statement (.versionV body) := rfl
theorem errorE (body : List Nibble) : Statement (.errorE body) := rfl
theorem txStdData (body : List Nibble) : Statement (.txStdData body) := rfl
theorem txExtData (body : List Nibble) : Statement (.txExtData body) := rfl
theorem txStdRemote (body : List Nibble) : Statement (.txStdRemote body) := rfl
theorem txExtRemote (body : List Nibble) : Statement (.txExtRemote body) := rfl
theorem encStdData (id : IdWord) (dlc : Nibble) (data : DataField) : Statement (.encStdData id dlc data) := rfl
theorem encExtData (id : IdWord) (dlc : Nibble) (data : DataField) : Statement (.encExtData id dlc data) := rfl
theorem encStdRemote (id : IdWord) (dlc : Nibble) (data : DataField) : Statement (.encStdRemote id dlc data) := rfl
theorem encExtRemote (id : IdWord) (dlc : Nibble) (data : DataField) : Statement (.encExtRemote id dlc data) := rfl
theorem hexDigit0 : Statement .hexDigit0 := rfl
theorem hexDigit1 : Statement .hexDigit1 := rfl
theorem hexDigit2 : Statement .hexDigit2 := rfl
theorem hexDigit3 : Statement .hexDigit3 := rfl
theorem hexDigit4 : Statement .hexDigit4 := rfl
theorem hexDigit5 : Statement .hexDigit5 := rfl
theorem hexDigit6 : Statement .hexDigit6 := rfl
theorem hexDigit7 : Statement .hexDigit7 := rfl
theorem hexDigit8 : Statement .hexDigit8 := rfl
theorem hexDigit9 : Statement .hexDigit9 := rfl
theorem hexUpperA : Statement .hexUpperA := rfl
theorem hexUpperB : Statement .hexUpperB := rfl
theorem hexUpperC : Statement .hexUpperC := rfl
theorem hexUpperD : Statement .hexUpperD := rfl
theorem hexUpperE : Statement .hexUpperE := rfl
theorem hexUpperF : Statement .hexUpperF := rfl
theorem hexLowerA : Statement .hexLowerA := rfl
theorem hexLowerB : Statement .hexLowerB := rfl
theorem hexLowerC : Statement .hexLowerC := rfl
theorem hexLowerD : Statement .hexLowerD := rfl
theorem hexLowerE : Statement .hexLowerE := rfl
theorem hexLowerF : Statement .hexLowerF := rfl
theorem nibble0 : Statement .nibble0 := rfl
theorem nibble1 : Statement .nibble1 := rfl
theorem nibble2 : Statement .nibble2 := rfl
theorem nibble3 : Statement .nibble3 := rfl
theorem nibble4 : Statement .nibble4 := rfl
theorem nibble5 : Statement .nibble5 := rfl
theorem nibble6 : Statement .nibble6 := rfl
theorem nibble7 : Statement .nibble7 := rfl
theorem nibble8 : Statement .nibble8 := rfl
theorem nibble9 : Statement .nibble9 := rfl
theorem nibble10 : Statement .nibble10 := rfl
theorem nibble11 : Statement .nibble11 := rfl
theorem nibble12 : Statement .nibble12 := rfl
theorem nibble13 : Statement .nibble13 := rfl
theorem nibble14 : Statement .nibble14 := rfl
theorem nibble15 : Statement .nibble15 := rfl

end RowMatch

end Sys2Proof.Laws
end

