-- ==== Sys2Proof/Laws/State.lean ====
section
/-! SUPPORT. One lemma per field per update of the state, so that no later proof unfolds a record update. -/

namespace Sys2Proof.Machine

@[simp] theorem State.returnValue_params (v : Value) (s : State) :
    (s.returnValue v).params = s.params := rfl
@[simp] theorem State.returnValue_errorRegister (v : Value) (s : State) :
    (s.returnValue v).errorRegister = s.errorRegister := rfl
@[simp] theorem State.returnValue_calls (v : Value) (s : State) :
    (s.returnValue v).calls = s.calls := rfl
@[simp] theorem State.returnValue_line (v : Value) (s : State) :
    (s.returnValue v).line = s.line := rfl
@[simp] theorem State.returnValue_length (v : Value) (s : State) :
    (s.returnValue v).length = s.length := rfl
@[simp] theorem State.returnValue_out (v : Value) (s : State) :
    (s.returnValue v).out = s.out := rfl
@[simp] theorem State.returnValue_result (v : Value) (s : State) :
    (s.returnValue v).result = some (.ok v) := rfl
@[simp] theorem State.returnValue_freeCount (v : Value) (s : State) :
    (s.returnValue v).freeCount = s.freeCount := rfl

@[simp] theorem State.raise_params (k : ErrorKind) (s : State) :
    (s.raise k).params = s.params := rfl
@[simp] theorem State.raise_errorRegister (k : ErrorKind) (s : State) :
    (s.raise k).errorRegister = s.errorRegister := rfl
@[simp] theorem State.raise_calls (k : ErrorKind) (s : State) :
    (s.raise k).calls = s.calls := rfl
@[simp] theorem State.raise_line (k : ErrorKind) (s : State) :
    (s.raise k).line = s.line := rfl
@[simp] theorem State.raise_length (k : ErrorKind) (s : State) :
    (s.raise k).length = s.length := rfl
@[simp] theorem State.raise_out (k : ErrorKind) (s : State) :
    (s.raise k).out = s.out := rfl
@[simp] theorem State.raise_result (k : ErrorKind) (s : State) :
    (s.raise k).result = some (.err k) := rfl
@[simp] theorem State.raise_freeCount (k : ErrorKind) (s : State) :
    (s.raise k).freeCount = s.freeCount := rfl

@[simp] theorem State.startCall_params (rest : List Call) (s : State) :
    (s.startCall rest).params = s.params := rfl
@[simp] theorem State.startCall_errorRegister (rest : List Call) (s : State) :
    (s.startCall rest).errorRegister = Config.freeErrorRegister s.freeCount % 2 ^ s.params.errRegBits := rfl
@[simp] theorem State.startCall_calls (rest : List Call) (s : State) :
    (s.startCall rest).calls = rest := rfl
@[simp] theorem State.startCall_line (rest : List Call) (s : State) :
    (s.startCall rest).line = s.line := rfl
@[simp] theorem State.startCall_length (rest : List Call) (s : State) :
    (s.startCall rest).length = s.length := rfl
@[simp] theorem State.startCall_out (rest : List Call) (s : State) :
    (s.startCall rest).out = s.out := rfl
@[simp] theorem State.startCall_result (rest : List Call) (s : State) :
    (s.startCall rest).result = s.result := rfl
@[simp] theorem State.startCall_freeCount (rest : List Call) (s : State) :
    (s.startCall rest).freeCount = s.freeCount + 1 := rfl

@[simp] theorem State.consumeLine_params (s : State) :
    (s.consumeLine).params = s.params := rfl
@[simp] theorem State.consumeLine_errorRegister (s : State) :
    (s.consumeLine).errorRegister = s.errorRegister := rfl
@[simp] theorem State.consumeLine_calls (s : State) :
    (s.consumeLine).calls = s.calls := rfl
@[simp] theorem State.consumeLine_line (s : State) :
    (s.consumeLine).line = { s.line with bytes := Memory.writeBytes s.line.bytes 1 (freeBytes s.freeCount (s.length - 1)) } := rfl
@[simp] theorem State.consumeLine_length (s : State) :
    (s.consumeLine).length = s.length := rfl
@[simp] theorem State.consumeLine_out (s : State) :
    (s.consumeLine).out = s.out := rfl
@[simp] theorem State.consumeLine_result (s : State) :
    (s.consumeLine).result = s.result := rfl
@[simp] theorem State.consumeLine_freeCount (s : State) :
    (s.consumeLine).freeCount = s.freeCount + (s.length - 1) := rfl

@[simp] theorem State.emitFrame_params (F : CanFrame) (s : State) :
    (s.emitFrame F).params = s.params := rfl
@[simp] theorem State.emitFrame_errorRegister (F : CanFrame) (s : State) :
    (s.emitFrame F).errorRegister = s.errorRegister := rfl
@[simp] theorem State.emitFrame_calls (F : CanFrame) (s : State) :
    (s.emitFrame F).calls = s.calls := rfl
@[simp] theorem State.emitFrame_line (F : CanFrame) (s : State) :
    (s.emitFrame F).line = s.line := rfl
@[simp] theorem State.emitFrame_length (F : CanFrame) (s : State) :
    (s.emitFrame F).length = s.length := rfl
@[simp] theorem State.emitFrame_out (F : CanFrame) (s : State) :
    (s.emitFrame F).out = { s.out with bytes := Memory.writeBytes s.out.bytes 0 (message F) } := rfl
@[simp] theorem State.emitFrame_result (F : CanFrame) (s : State) :
    (s.emitFrame F).result = some (.ok (.length (message F).length)) := rfl
@[simp] theorem State.emitFrame_freeCount (F : CanFrame) (s : State) :
    (s.emitFrame F).freeCount = s.freeCount := rfl

/-! ## Loading a call's buffers -/

@[simp] theorem State.loadBuffers_params (c : Call) (s : State) :
    (s.loadBuffers c).params = s.params := by cases c <;> rfl
@[simp] theorem State.loadBuffers_errorRegister (c : Call) (s : State) :
    (s.loadBuffers c).errorRegister = s.errorRegister := by cases c <;> rfl
@[simp] theorem State.loadBuffers_calls (c : Call) (s : State) :
    (s.loadBuffers c).calls = s.calls := by cases c <;> rfl
@[simp] theorem State.loadBuffers_result (c : Call) (s : State) :
    (s.loadBuffers c).result = s.result := by cases c <;> rfl
@[simp] theorem State.loadBuffers_freeCount (c : Call) (s : State) :
    (s.loadBuffers c).freeCount = s.freeCount := by cases c <;> rfl

@[simp] theorem State.loadBuffers_decode_line (b : Option Buffer) (n : Nat) (s : State) :
    (s.loadBuffers (.decode b n)).line = b.getD s.line := rfl
@[simp] theorem State.loadBuffers_decode_length (b : Option Buffer) (n : Nat) (s : State) :
    (s.loadBuffers (.decode b n)).length = n := rfl
@[simp] theorem State.loadBuffers_decode_out (b : Option Buffer) (n : Nat) (s : State) :
    (s.loadBuffers (.decode b n)).out = s.out := rfl
@[simp] theorem State.loadBuffers_encode_out (F : CanFrame) (b : Option Buffer) (s : State) :
    (s.loadBuffers (.encode F b)).out = b.getD s.out := rfl
@[simp] theorem State.loadBuffers_encode_line (F : CanFrame) (b : Option Buffer) (s : State) :
    (s.loadBuffers (.encode F b)).line = s.line := rfl
@[simp] theorem State.loadBuffers_encode_length (F : CanFrame) (b : Option Buffer) (s : State) :
    (s.loadBuffers (.encode F b)).length = s.length := rfl
@[simp] theorem State.loadBuffers_hex2nib (c : Byte) (s : State) : s.loadBuffers (.hex2nib c) = s := rfl
@[simp] theorem State.loadBuffers_nib2hex (v : Nibble) (s : State) : s.loadBuffers (.nib2hex v) = s := rfl

/-! ## After the fetch -/

@[simp] theorem State.afterFetch_decode (b : Option Buffer) (n : Nat) (s : State) :
    s.afterFetch (.decode b n) = s.consumeLine := rfl
@[simp] theorem State.afterFetch_encode (F : CanFrame) (b : Option Buffer) (s : State) :
    s.afterFetch (.encode F b) = s := rfl
@[simp] theorem State.afterFetch_hex2nib (c : Byte) (s : State) : s.afterFetch (.hex2nib c) = s := rfl
@[simp] theorem State.afterFetch_nib2hex (v : Nibble) (s : State) : s.afterFetch (.nib2hex v) = s := rfl

@[simp] theorem State.afterFetch_params (c : Call) (s : State) :
    (s.afterFetch c).params = s.params := by cases c <;> rfl
@[simp] theorem State.afterFetch_errorRegister (c : Call) (s : State) :
    (s.afterFetch c).errorRegister = s.errorRegister := by cases c <;> rfl
@[simp] theorem State.afterFetch_calls (c : Call) (s : State) :
    (s.afterFetch c).calls = s.calls := by cases c <;> rfl
@[simp] theorem State.afterFetch_out (c : Call) (s : State) :
    (s.afterFetch c).out = s.out := by cases c <;> rfl
@[simp] theorem State.afterFetch_length (c : Call) (s : State) :
    (s.afterFetch c).length = s.length := by cases c <;> rfl
@[simp] theorem State.afterFetch_result (c : Call) (s : State) :
    (s.afterFetch c).result = s.result := by cases c <;> rfl

/-- Setting a result twice keeps the second. -/
@[simp] theorem State.result_twice (s : State) (r r' : Option (Result Value)) :
    { { s with result := r } with result := r' } = { s with result := r' } := rfl

end Sys2Proof.Machine
end

