-- ==== Sys2Proof/Laws/Step.lean ====
section
/-! SUPPORT. What each shared operation, each meaning and each step can do, said once. -/

namespace Sys2Proof.Machine

/-! ## The ends of a call -/

/-- The result a DECODE call delivers. -/
def commandResult : Result Command → Result Value
  | .ok c => .ok (.command c)
  | .err k => .err k

/-- DECODE ends in one next state, whatever its result. -/
theorem finish_eq (r : Result Command) (s : State) :
    s.finish r = .next { s with result := some (commandResult r) } := by
  cases r <;> rfl

/-- HEX2NIB ends in one next state, whatever its result. -/
theorem callHex2nib_eq (c : Byte) (s : State) :
    s.callHex2nib c = .next { s with result := some (match hex2nib c with | .ok v => .ok (.nibble v) | .err k => .err k) } := by
  unfold State.callHex2nib
  cases hex2nib c <;> rfl

theorem callNib2hex_eq (v : Nibble) (s : State) :
    s.callNib2hex v = .next { s with result := some (.ok (.byte (nib2hex v))) } := rfl

/-- Everything ENCODE can do (R80). -/
theorem encodeFrame_cases (F : CanFrame) (s : State) :
    (s.encodeFrame F = .refused .bufferShared ∧ s.out.exclusive = false) ∨
    (s.encodeFrame F = .refused .outBufferTooSmall ∧ s.out.exclusive = true ∧ s.out.capacity < 27) ∨
    (s.out.exclusive = true ∧ 27 ≤ s.out.capacity ∧ idMax F.idKind < F.id.toNat ∧
      s.encodeFrame F = .next (s.raise .identifierOutOfRange)) ∨
    (s.out.exclusive = true ∧ 27 ≤ s.out.capacity ∧ F.id.toNat ≤ idMax F.idKind ∧ 8 < F.dlc.toNat ∧
      s.encodeFrame F = .next (s.raise .invalidDlc)) ∨
    (s.out.exclusive = true ∧ 27 ≤ s.out.capacity ∧ F.id.toNat ≤ idMax F.idKind ∧ F.dlc.toNat ≤ 8 ∧
      s.encodeFrame F = .next (s.emitFrame F)) := by
  unfold State.encodeFrame outMin
  cases hx : s.out.exclusive with
  | false => exact .inl ⟨by simp, rfl⟩
  | true =>
    right
    by_cases hc : s.out.capacity < 27
    · exact .inl ⟨by simp [hc], rfl, hc⟩
    · have hc' : 27 ≤ s.out.capacity := by omega
      right
      rcases frameError_cases F with ⟨he, h1⟩ | ⟨he, h1, h2⟩ | ⟨he, h1, h2⟩
      · exact .inl ⟨rfl, hc', h1, by simp [hc, he]⟩
      · exact .inr (.inl ⟨rfl, hc', h1, h2, by simp [hc, he]⟩)
      · exact .inr (.inr ⟨rfl, hc', h1, h2, by simp [hc, he]⟩)

/-! ## Meanings by operation -/

/-- The Command or error kind of a DECODE instruction, as a function of the bitrate bound alone. -/
def commandOf (bound : Nat) : Instr → Result Command
  | .openO _ => .ok .opened
  | .closeC _ => .ok .closed
  | .setBitrateS body => bitrateCommand bound body
  | .silentUpperM body => flagCommand .setSilentMode body
  | .silentLowerM body => flagCommand .setSilentMode body
  | .autoUpperA body => flagCommand .setAutoRetransmit body
  | .autoLowerA body => flagCommand .setAutoRetransmit body
  | .versionV _ => .ok .queryVersion
  | .errorE _ => .ok .queryErrorRegister
  | .txStdData body => transmit .data .standard body
  | .txExtData body => transmit .data .extended body
  | .txStdRemote body => transmit .remote .standard body
  | .txExtRemote body => transmit .remote .extended body
  | _ => .err .unknownCommand

/-- A recognised line runs as its Command (R93). -/
theorem exec_leading {c0 : Byte} {mk : List Nibble → Instr} (h : leadingByte c0 = some mk) (body : List Nibble)
    (s : State) : exec (mk body) s = s.finish (commandOf s.params.canBitrateInvalid (mk body)) := by
  rcases leadingByte_cases h with
    ⟨_, rfl⟩ | ⟨_, rfl⟩ | ⟨_, rfl⟩ | ⟨_, rfl⟩ | ⟨_, rfl⟩ | ⟨_, rfl⟩ | ⟨_, rfl⟩ | ⟨_, rfl⟩ | ⟨_, rfl⟩ | ⟨_, rfl⟩ |
    ⟨_, rfl⟩ | ⟨_, rfl⟩ | ⟨_, rfl⟩ <;> rfl

theorem exec_decodeFrame (F : CanFrame) (s : State) : exec (decodeFrame F) s = s.encodeFrame F := by
  obtain ⟨k, i, id, dlc, data⟩ := F
  cases k <;> cases i <;> rfl

theorem exec_decodeNibble (v : Nibble) (s : State) : exec (decodeNibble v) s = s.callNib2hex v := by
  revert v
  refine nibble_forall fun k => ?_
  fin_cases k <;> rfl

theorem exec_decodeChar {c : Byte} {i : Instr} (h : decodeChar c = .ok i) (s : State) : exec i s = s.callHex2nib c := by
  unfold decodeChar at h
  split at h <;> first
    | (cases h
       rename_i hc
       have hc' : c = BitVec.ofNat 8 c.toNat := by simp
       rw [hc', hc]
       rfl)
    | cases h

/-- Every meaning is the operation of its image, applied to it. -/
theorem exec_encode (i : Instr) (s : State) :
    match encode i with
    | .nibble v => exec i s = s.callNib2hex v
    | .char c => exec i s = s.callHex2nib c
    | .frame F => exec i s = s.encodeFrame F
    | .line _ => exec i s = s.finish (commandOf s.params.canBitrateInvalid i) := by
  cases i <;> rfl

/-- The four shapes a meaning can have. -/
theorem exec_shape (i : Instr) (s : State) :
    exec i s = s.finish (commandOf s.params.canBitrateInvalid i) ∨ (∃ F, exec i s = s.encodeFrame F) ∨
    (∃ c, exec i s = s.callHex2nib c) ∨ (∃ v, exec i s = s.callNib2hex v) := by
  have h := exec_encode i s
  split at h
  · exact .inr (.inr (.inr ⟨_, h⟩))
  · exact .inr (.inr (.inl ⟨_, h⟩))
  · exact .inr (.inl ⟨_, h⟩)
  · exact .inl h

/-! ## Commands that are delivered -/

/-- What a delivered Command can be: a frame is well-formed (R120), an index is below the bound (R102). -/
theorem commandOf_ok {bound : Nat} {i : Instr} {c : Command} (h : commandOf bound i = .ok c) :
    (∀ F, c = .transmit F → frameWellFormed F = true) ∧ (∀ n, c = .setBitrate n → n.toNat < bound) := by
  have tx : ∀ kind idk body, transmit kind idk body = .ok c →
      (∀ F, c = .transmit F → frameWellFormed F = true) ∧ (∀ n, c = .setBitrate n → n.toNat < bound) := by
    intro kind idk body ht
    rcases transmit_cases kind idk body with ⟨e, _⟩ | ⟨e, _⟩ | ⟨e, _⟩ | ⟨e, _⟩ | ⟨e, _⟩ | ⟨e, h1, h2, _⟩ <;>
      rw [e] at ht <;> cases ht
    exact ⟨fun F hF => (by cases hF; exact bodyFrame_wellFormed h1 h2), fun n hn => (by cases hn)⟩
  have flag : ∀ (mk : Bool → Command) body, (∀ b, (∀ F, mk b ≠ .transmit F) ∧ ∀ n, mk b ≠ .setBitrate n) →
      flagCommand mk body = .ok c →
      (∀ F, c = .transmit F → frameWellFormed F = true) ∧ (∀ n, c = .setBitrate n → n.toNat < bound) := by
    intro mk body hmk hf
    unfold flagCommand at hf
    split at hf
    · cases hf
    · cases hf
      exact ⟨fun F hF => absurd hF ((hmk _).1 F), fun n hn => absurd hn ((hmk _).2 n)⟩
  cases i <;> simp only [commandOf] at h
  case setBitrateS body =>
    unfold bitrateCommand at h
    split at h
    · cases h
    · split at h
      · cases h
      · cases h
        exact ⟨fun F hF => (by cases hF), fun m hm => (by cases hm; omega)⟩
  case silentUpperM body => exact flag _ _ (by simp) h
  case silentLowerM body => exact flag _ _ (by simp) h
  case autoUpperA body => exact flag _ _ (by simp) h
  case autoLowerA body => exact flag _ _ (by simp) h
  case txStdData body => exact tx _ _ _ h
  case txExtData body => exact tx _ _ _ h
  case txStdRemote body => exact tx _ _ _ h
  case txExtRemote body => exact tx _ _ _ h
  all_goals first
    | (cases h; done)
    | (cases h; exact ⟨fun F hF => (by cases hF), fun n hn => (by cases hn)⟩)

/-! ## Steps by call -/

/-- DECODE as a function of its line and the bitrate bound (R87). -/
def decodeCommand (bound : Nat) (bytes : List Byte) : Result Command :=
  match decodeLine bytes with
  | .ok i => commandOf bound i
  | .err k => .err k

theorem step_idle {s : State} (h : s.calls = []) : step s = .next s := by
  unfold step; rw [h]

theorem step_nib2hex {s : State} {v : Nibble} {rest : List Call} (h : s.calls = .nib2hex v :: rest) :
    step s = (s.startCall rest).callNib2hex v := by
  unfold step; rw [h]
  exact exec_decodeNibble v _

theorem step_hex2nib {s : State} {c : Byte} {rest : List Call} (h : s.calls = .hex2nib c :: rest) :
    step s = (s.startCall rest).callHex2nib c := by
  unfold step; rw [h]
  simp only [runCall, State.lineRefusal, State.begin, State.fetchImage, decode, State.loadBuffers_hex2nib,
    State.afterFetch_hex2nib]
  cases hd : decodeChar c with
  | ok i => exact exec_decodeChar hd _
  | err k =>
    obtain ⟨rfl, hx⟩ := decodeChar_err hd
    simp [State.callHex2nib, hx]

theorem step_encode {s : State} {F : CanFrame} {b : Option Buffer} {rest : List Call}
    (h : s.calls = .encode F b :: rest) :
    step s = (s.begin (.encode F b) rest).encodeFrame F := by
  unfold step; rw [h]
  exact exec_decodeFrame F _

/-- A DECODE call in the state its buffers are loaded in: refused, or one next state with its result (R43, R155, R96). -/
theorem runCall_decode (b : Option Buffer) (n : Nat) (u : State) :
    (runCall (.decode b n) u = .refused .bufferShared ∧ u.line.exclusive = false) ∨
    (runCall (.decode b n) u = .refused .lengthBeyondBuffer ∧ u.line.exclusive = true ∧ u.line.capacity < u.length) ∨
    (u.line.exclusive = true ∧ u.length ≤ u.line.capacity ∧
      runCall (.decode b n) u = .next { u.consumeLine with
        result := some (commandResult (decodeCommand u.params.canBitrateInvalid
          (Memory.readBytes u.line.bytes 0 u.length))) }) := by
  simp only [runCall, State.lineRefusal, State.fetchImage, decode, State.afterFetch_decode]
  by_cases hx : u.line.exclusive = false
  · exact .inl ⟨by simp only [if_pos hx], hx⟩
  · right
    have hx' : u.line.exclusive = true := by simpa using hx
    by_cases hc : u.line.capacity < u.length
    · exact .inl ⟨by simp only [if_neg hx, if_pos hc], hx', hc⟩
    · refine .inr ⟨hx', by omega, ?_⟩
      simp only [if_neg hx, if_neg hc, decodeCommand]
      rcases decodeLine_cases (Memory.readBytes u.line.bytes 0 u.length) with
        ⟨_, e⟩ | ⟨_, _, _, _, e⟩ | ⟨_, _, _, _, _, _, e⟩ | ⟨_, _, mk, body, _, hm, _, e⟩
      · rw [e]; rfl
      · rw [e]; rfl
      · rw [e]; rfl
      · rw [e]
        simp only [exec_leading hm, finish_eq]
        rfl

/-- A DECODE call as a step. -/
theorem step_decode {s : State} {b : Option Buffer} {n : Nat} {rest : List Call} (h : s.calls = .decode b n :: rest) :
    (step s = .refused .bufferShared ∧ (b.getD s.line).exclusive = false) ∨
    (step s = .refused .lengthBeyondBuffer ∧ (b.getD s.line).exclusive = true ∧ (b.getD s.line).capacity < n) ∨
    ((b.getD s.line).exclusive = true ∧ n ≤ (b.getD s.line).capacity ∧
      step s = .next { (s.begin (.decode b n) rest).consumeLine with
        result := some (commandResult (decodeCommand s.params.canBitrateInvalid
          (Memory.readBytes (b.getD s.line).bytes 0 n))) }) := by
  unfold step; rw [h]
  exact runCall_decode b n (s.begin (.decode b n) rest)

end Sys2Proof.Machine
end

