-- ==== Sys2Proof/Tests/Slice0.lean ====
section
/-! SUPPORT. The model's own tests: the well-formedness smoke, words written out from the spec's encodings, the vectors of
95_test_vectors.md (each named by its row there), and a witness for the hypotheses of each statement. -/

namespace Sys2Proof.Tests

open Sys2Proof Sys2Proof.Machine Sys2Proof.Spec

/-- Reset with one pending call and a bitrate bound. -/
def withCall (bound : Nat) (c : Call) : State :=
  { State.reset with params := { State.reset.params with canBitrateInvalid := bound }, calls := [c] }

/-- What DECODE returns for a line in a fresh buffer. -/
def ran (bound : Nat) (bytes : List Byte) : Option (Option (Result Value)) :=
  resultOf (step (withCall bound (Call.ofImage (.line bytes))))

/-- What a row of the 95_test_vectors.md tables calls `ok(c)`. -/
def okC (c : Command) : Option (Option (Result Value)) := some (some (.ok (.command c)))

def errK (k : ErrorKind) : Option (Option (Result Value)) := some (some (.err k))

/-- A frame whose carrier is 0 beyond the listed bytes. -/
def frame (k : FrameKind) (i : IdKind) (id : IdWord) (dlc : Nibble) (bytes : List Byte) : CanFrame :=
  ⟨k, i, id, dlc, dataField bytes⟩

/-- A 27-byte output buffer filled with 0xEE (program P2). -/
def ee27 : Buffer := Buffer.ofBytes (List.replicate 27 0xEE)

/-- The result of ENCODE into `ee27`, and the 27 bytes that OUT then holds. -/
def sent (F : CanFrame) : Option (Option (Result Value) × List Byte) :=
  match step (withCall 9 (.encode F (some ee27))) with
  | .next t => some (t.result, Memory.readBytes t.out.bytes 0 27)
  | .fault _ => none
  | .refused _ => none

/-! ## WellFormed: one ill-formed term for each check -/

theorem test_wf_hasOperand : Instr.wellFormed (.setBitrateS []) = false := by decide
theorem test_wf_hasOperand_flags :
    [Instr.silentUpperM [], .silentLowerM [], .autoUpperA [], .autoLowerA []].all (fun i => !i.wellFormed) = true := by decide
theorem test_wf_hasIdentifier : Instr.wellFormed (.txStdData [1, 2]) = false := by decide
theorem test_wf_identifierFits : Instr.wellFormed (.txStdRemote [8, 0, 0, 0]) = false := by decide
theorem test_wf_hasDlc : Instr.wellFormed (.txExtData [0, 0, 0, 0, 0, 0, 0, 0]) = false := by decide
theorem test_wf_dlcFits : Instr.wellFormed (.txStdData ([1, 2, 3, 9] ++ List.replicate 18 0)) = false := by decide
theorem test_wf_hasData : Instr.wellFormed (.txExtRemote [1, 15, 15, 15, 15, 15, 15, 15, 1, 0]) = false := by decide
theorem test_wf_encIdOk : Instr.wellFormed (.encStdData 0x800 0 (dataField [])) = false ∧
    Instr.wellFormed (.encExtData 0x20000000 0 (dataField [])) = false := by decide
theorem test_wf_encDlcOk : Instr.wellFormed (.encStdRemote 0x123 9 (dataField [])) = false ∧
    Instr.wellFormed (.encExtRemote 0x123 9 (dataField [])) = false := by decide
theorem test_wf_accepts : Instr.wellFormed (.txStdData [7, 15, 15, 1, 10, 5]) = true ∧
    Instr.wellFormed (.encExtRemote 0x1FFFFFFF 8 (dataField [])) = true := by decide

/-! ## Decode: words written out from the spec's encodings (R47, R50, R51, R59) -/

/-- "O" -/
theorem test_decode_openO : decode (.line [0x4F]) = .ok (.openO []) := by decide
/-- "C" -/
theorem test_decode_closeC : decode (.line [0x43]) = .ok (.closeC []) := by decide
/-- "V" -/
theorem test_decode_versionV : decode (.line [0x56]) = .ok (.versionV []) := by decide
/-- "E" -/
theorem test_decode_errorE : decode (.line [0x45]) = .ok (.errorE []) := by decide
/-- "S3" -/
theorem test_decode_setBitrateS : decode (.line [0x53, 0x33]) = .ok (.setBitrateS [3]) := by decide
/-- "M1" -/
theorem test_decode_silentUpperM : decode (.line [0x4D, 0x31]) = .ok (.silentUpperM [1]) := by decide
/-- "m0" -/
theorem test_decode_silentLowerM : decode (.line [0x6D, 0x30]) = .ok (.silentLowerM [0]) := by decide
/-- "A1" -/
theorem test_decode_autoUpperA : decode (.line [0x41, 0x31]) = .ok (.autoUpperA [1]) := by decide
/-- "aA" -/
theorem test_decode_autoLowerA : decode (.line [0x61, 0x41]) = .ok (.autoLowerA [10]) := by decide
/-- "t1232ABCD" -/
theorem test_decode_txStdData : decode (.line [0x74, 0x31, 0x32, 0x33, 0x32, 0x41, 0x42, 0x43, 0x44]) = .ok (.txStdData [1, 2, 3, 2, 10, 11, 12, 13]) := by decide
/-- "T0000012a1fF" -/
theorem test_decode_txExtData : decode (.line [0x54, 0x30, 0x30, 0x30, 0x30, 0x30, 0x31, 0x32, 0x61, 0x31, 0x66, 0x46]) = .ok (.txExtData [0, 0, 0, 0, 0, 1, 2, 10, 1, 15, 15]) := by decide
/-- "r7FF0" -/
theorem test_decode_txStdRemote : decode (.line [0x72, 0x37, 0x46, 0x46, 0x30]) = .ok (.txStdRemote [7, 15, 15, 0]) := by decide
/-- "R001ABCDE0" -/
theorem test_decode_txExtRemote : decode (.line [0x52, 0x30, 0x30, 0x31, 0x41, 0x42, 0x43, 0x44, 0x45, 0x30]) = .ok (.txExtRemote [0, 0, 1, 10, 11, 12, 13, 14, 0]) := by decide

/-- R59: the form is selected by (frame_kind, id_kind). -/
theorem test_decode_frames :
    decode (.frame (frame .data .standard 0x123 0 [])) = .ok (.encStdData 0x123 0 (dataField [])) ∧
    decode (.frame (frame .data .extended 0x123 0 [])) = .ok (.encExtData 0x123 0 (dataField [])) ∧
    decode (.frame (frame .remote .standard 0x123 0 [])) = .ok (.encStdRemote 0x123 0 (dataField [])) ∧
    decode (.frame (frame .remote .extended 0x123 0 [])) = .ok (.encExtRemote 0x123 0 (dataField [])) := by decide

/-- R66: the ten digit bytes. -/
theorem test_decode_digits :
    decode (.char 0x30) = .ok .hexDigit0 ∧
    decode (.char 0x31) = .ok .hexDigit1 ∧
    decode (.char 0x32) = .ok .hexDigit2 ∧
    decode (.char 0x33) = .ok .hexDigit3 ∧
    decode (.char 0x34) = .ok .hexDigit4 ∧
    decode (.char 0x35) = .ok .hexDigit5 ∧
    decode (.char 0x36) = .ok .hexDigit6 ∧
    decode (.char 0x37) = .ok .hexDigit7 ∧
    decode (.char 0x38) = .ok .hexDigit8 ∧
    decode (.char 0x39) = .ok .hexDigit9 := by decide
/-- R66: the twelve letter bytes. -/
theorem test_decode_letters :
    decode (.char 0x41) = .ok .hexUpperA ∧
    decode (.char 0x42) = .ok .hexUpperB ∧
    decode (.char 0x43) = .ok .hexUpperC ∧
    decode (.char 0x44) = .ok .hexUpperD ∧
    decode (.char 0x45) = .ok .hexUpperE ∧
    decode (.char 0x46) = .ok .hexUpperF ∧
    decode (.char 0x61) = .ok .hexLowerA ∧
    decode (.char 0x62) = .ok .hexLowerB ∧
    decode (.char 0x63) = .ok .hexLowerC ∧
    decode (.char 0x64) = .ok .hexLowerD ∧
    decode (.char 0x65) = .ok .hexLowerE ∧
    decode (.char 0x66) = .ok .hexLowerF := by decide
/-- R64: the sixteen nibbles. -/
theorem test_decode_nibbles :
    decode (.nibble 0) = .ok .nibble0 ∧
    decode (.nibble 1) = .ok .nibble1 ∧
    decode (.nibble 2) = .ok .nibble2 ∧
    decode (.nibble 3) = .ok .nibble3 ∧
    decode (.nibble 4) = .ok .nibble4 ∧
    decode (.nibble 5) = .ok .nibble5 ∧
    decode (.nibble 6) = .ok .nibble6 ∧
    decode (.nibble 7) = .ok .nibble7 ∧
    decode (.nibble 8) = .ok .nibble8 ∧
    decode (.nibble 9) = .ok .nibble9 ∧
    decode (.nibble 10) = .ok .nibble10 ∧
    decode (.nibble 11) = .ok .nibble11 ∧
    decode (.nibble 12) = .ok .nibble12 ∧
    decode (.nibble 13) = .ok .nibble13 ∧
    decode (.nibble 14) = .ok .nibble14 ∧
    decode (.nibble 15) = .ok .nibble15 := by decide

/-- R67: boundary bytes outside the three ranges. -/
theorem test_decode_not_hex : ∀ c ∈ [(0x00 : Byte), 0x2F, 0x3A, 0x40, 0x47, 0x60, 0x67, 0xFF],
    decode (.char c) = .err .invalidCharacter := by decide
/-- The first two bytes of a table word, bit 0 the least significant bit of the first byte. -/
theorem test_table_word : decodeTableWord 16 0x3353 = some (.setBitrateS [3]) ∧ decodeTableWord 8 0x4F = some (.openO []) ∧
    decodeTableWord 8 0x0B = some .nibble11 ∧ decodeTableWord 8 0x62 = some .hexLowerB ∧
    decodeTableWord 8 0x67 = none := by decide
/-- A table word runs as the next call. -/
theorem test_fetch_word : resultOf (step (State.reset.withFetchWord 16 0x3353)) = okC (.setBitrate 3) := by decide

/-! ## Control commands (2.3, 2.4) -/

/-- S3, Ph3.1, Ph2.1 -/
theorem test_open :
    ran 9 [0x4F] = okC .opened ∧
    ran 9 [0x4F, 0x31, 0x32, 0x33] = okC .opened ∧
    ran 9 [0x4F, 0x78] = errK .invalidCharacter := by decide
/-- K2, Ph3.2 -/
theorem test_close :
    ran 9 [0x43] = okC .closed ∧
    ran 9 [0x43, 0x66, 0x66] = okC .closed := by decide
/-- K3, Ph3.3, Ph2.3 -/
theorem test_version :
    ran 9 [0x56] = okC .queryVersion ∧
    ran 9 [0x56, 0x30, 0x30] = okC .queryVersion ∧
    ran 9 [0x56, 0x56] = errK .invalidCharacter := by decide
/-- K4, Ph3.4 -/
theorem test_error :
    ran 9 [0x45] = okC .queryErrorRegister ∧
    ran 9 [0x45, 0x31, 0x46] = okC .queryErrorRegister := by decide
/-- S4, K6, K9, K10, Ph2.6, Ph3.6 -/
theorem test_bitrate :
    ran 9 [0x53, 0x33] = okC (.setBitrate 3) ∧
    ran 9 [0x53, 0x38] = okC (.setBitrate 8) ∧
    ran 9 [0x53, 0x39] = errK .invalidBitrate ∧
    ran 9 [0x53, 0x46] = errK .invalidBitrate ∧
    ran 9 [0x53] = errK .truncatedInput ∧
    ran 9 [0x53, 0x39, 0x7A] = errK .invalidCharacter ∧
    ran 9 [0x53, 0x31, 0x30] = okC (.setBitrate 1) := by decide
/-- K11, K12, K13 -/
theorem test_bitrate_bounds :
    ran 0 [0x53, 0x30] = errK .invalidBitrate ∧
    ran 1 [0x53, 0x30] = okC (.setBitrate 0) ∧
    ran 1 [0x53, 0x31] = errK .invalidBitrate ∧
    ran 16 [0x53, 0x46] = okC (.setBitrate 15) := by decide
/-- K14, K15, K17, Ph3.8, K21 -/
theorem test_silent_upper :
    ran 9 [0x4D, 0x31] = okC (.setSilentMode true) ∧
    ran 9 [0x4D, 0x30] = okC (.setSilentMode false) ∧
    ran 9 [0x4D] = errK .truncatedInput ∧
    ran 9 [0x4D, 0x30, 0x31] = okC (.setSilentMode false) ∧
    ran 9 [0x4D, 0x78] = errK .invalidCharacter := by decide
/-- K14, K16, K17 -/
theorem test_silent_lower :
    ran 9 [0x6D, 0x31] = okC (.setSilentMode true) ∧
    ran 9 [0x6D, 0x66] = okC (.setSilentMode false) ∧
    ran 9 [0x6D, 0x32] = okC (.setSilentMode false) ∧
    ran 9 [0x6D] = errK .truncatedInput := by decide
/-- K18, K19, K20 -/
theorem test_auto_upper :
    ran 9 [0x41, 0x31] = okC (.setAutoRetransmit true) ∧
    ran 9 [0x41, 0x46] = okC (.setAutoRetransmit false) ∧
    ran 9 [0x41] = errK .truncatedInput := by decide
/-- K18, K19, K20 -/
theorem test_auto_lower :
    ran 9 [0x61, 0x31] = okC (.setAutoRetransmit true) ∧
    ran 9 [0x61, 0x41] = okC (.setAutoRetransmit false) ∧
    ran 9 [0x61] = errK .truncatedInput := by decide
/-- Ph1.1, Ph1.2, Ph1.3, Ph1.5, Ph1.6, Ph1.9 -/
theorem test_dispatch :
    ran 9 [] = errK .truncatedInput ∧
    ran 9 [0x67] = errK .unknownCommand ∧
    ran 9 [0x30] = errK .unknownCommand ∧
    ran 9 [0x73, 0x33] = errK .unknownCommand ∧
    ran 9 [0x58, 0x7A, 0x7A] = errK .unknownCommand ∧
    ran 9 [0x0D] = errK .unknownCommand := by decide

/-! ## Transmit commands (2.3, 2.5) -/

/-- S2, T5, T10, T14, Ph3.9 -/
theorem test_tx_std_data :
    ran 9 [0x74, 0x31, 0x32, 0x33, 0x32, 0x41, 0x42, 0x43, 0x44] = okC (.transmit (frame .data .standard 0x123 2 [0xAB, 0xCD])) ∧
    ran 9 [0x74, 0x37, 0x46, 0x46, 0x30] = okC (.transmit (frame .data .standard 0x7FF 0 [])) ∧
    ran 9 [0x74, 0x31, 0x32, 0x33, 0x38, 0x31, 0x31, 0x32, 0x32, 0x33, 0x33, 0x34, 0x34, 0x35, 0x35, 0x36, 0x36, 0x37, 0x37, 0x38, 0x38] = okC (.transmit (frame .data .standard 0x123 8 [0x11, 0x22, 0x33, 0x44, 0x55, 0x66, 0x77, 0x88])) ∧
    ran 9 [0x74, 0x31, 0x32, 0x33, 0x32, 0x41, 0x62, 0x43, 0x64] = okC (.transmit (frame .data .standard 0x123 2 [0xAB, 0xCD])) ∧
    ran 9 [0x74, 0x31, 0x32, 0x33, 0x30, 0x46, 0x46] = okC (.transmit (frame .data .standard 0x123 0 [])) := by decide
/-- T2, T3, T8, T9, T12, T11, T15, Ph2.5, S2 -/
theorem test_tx_std_data_errors :
    ran 9 [0x74, 0x30, 0x30, 0x30] = errK .truncatedInput ∧
    ran 9 [0x74, 0x31, 0x32] = errK .truncatedInput ∧
    ran 9 [0x74, 0x38, 0x30, 0x30] = errK .identifierOutOfRange ∧
    ran 9 [0x74, 0x38, 0x30, 0x30, 0x39] = errK .identifierOutOfRange ∧
    ran 9 [0x74, 0x31, 0x32, 0x33, 0x39] = errK .invalidDlc ∧
    ran 9 [0x74, 0x31, 0x32, 0x33, 0x38, 0x31, 0x31, 0x32, 0x32, 0x33, 0x33, 0x34, 0x34, 0x35, 0x35, 0x36, 0x36, 0x37, 0x37, 0x38] = errK .truncatedInput ∧
    ran 9 [0x74, 0x30, 0x30, 0x30, 0x31, 0x30] = errK .truncatedInput ∧
    ran 9 [0x74, 0x31, 0x32, 0x78] = errK .invalidCharacter ∧
    ran 9 [0x74, 0x31, 0x32, 0x33, 0x32, 0x41, 0x42, 0x43, 0x44, 0x0D] = errK .invalidCharacter := by decide
/-- T17, T21, T24, T25, T26 -/
theorem test_tx_ext_data :
    ran 9 [0x54, 0x30, 0x30, 0x30, 0x30, 0x30, 0x30, 0x30, 0x30, 0x30] = okC (.transmit (frame .data .extended 0x0 0 [])) ∧
    ran 9 [0x54, 0x31, 0x46, 0x46, 0x46, 0x46, 0x46, 0x46, 0x46, 0x30] = okC (.transmit (frame .data .extended 0x1FFFFFFF 0 [])) ∧
    ran 9 [0x54, 0x30, 0x30, 0x30, 0x30, 0x30, 0x38, 0x30, 0x30, 0x30] = okC (.transmit (frame .data .extended 0x800 0 [])) ∧
    ran 9 [0x54, 0x30, 0x30, 0x30, 0x30, 0x30, 0x31, 0x32, 0x61, 0x31, 0x66, 0x46] = okC (.transmit (frame .data .extended 0x12A 1 [0xFF])) ∧
    ran 9 [0x54, 0x31, 0x46, 0x46, 0x46, 0x46, 0x46, 0x46, 0x46, 0x38, 0x46, 0x46, 0x46, 0x46, 0x46, 0x46, 0x46, 0x46, 0x46, 0x46, 0x46, 0x46, 0x46, 0x46, 0x46, 0x46] = okC (.transmit (frame .data .extended 0x1FFFFFFF 8 [0xFF, 0xFF, 0xFF, 0xFF, 0xFF, 0xFF, 0xFF, 0xFF])) := by decide
/-- T18, T20, T22, T23, T27, D7 -/
theorem test_tx_ext_data_errors :
    ran 9 [0x54, 0x30, 0x30, 0x30, 0x30, 0x30, 0x30, 0x30, 0x30] = errK .truncatedInput ∧
    ran 9 [0x54, 0x31, 0x32, 0x33, 0x32, 0x41, 0x42, 0x43, 0x44] = errK .truncatedInput ∧
    ran 9 [0x54, 0x32, 0x30, 0x30, 0x30, 0x30, 0x30, 0x30, 0x30, 0x30] = errK .identifierOutOfRange ∧
    ran 9 [0x54, 0x46, 0x46, 0x46, 0x46, 0x46, 0x46, 0x46, 0x46, 0x30] = errK .identifierOutOfRange ∧
    ran 9 [0x54, 0x31, 0x46, 0x46, 0x46, 0x46, 0x46, 0x46, 0x46, 0x38, 0x46, 0x46, 0x46, 0x46, 0x46, 0x46, 0x46, 0x46, 0x46, 0x46, 0x46, 0x46, 0x46, 0x46, 0x46] = errK .truncatedInput ∧
    ran 9 [0x54, 0x46, 0x46, 0x46, 0x46, 0x46, 0x46, 0x46, 0x46] = errK .identifierOutOfRange := by decide
/-- T29, T31 -/
theorem test_tx_std_remote :
    ran 9 [0x72, 0x37, 0x46, 0x46, 0x30] = okC (.transmit (frame .remote .standard 0x7FF 0 [])) ∧
    ran 9 [0x72, 0x31, 0x32, 0x33, 0x32, 0x41, 0x42, 0x43, 0x44] = okC (.transmit (frame .remote .standard 0x123 2 [0xAB, 0xCD])) := by decide
/-- T30 (R121) -/
theorem test_tx_std_remote_errors :
    ran 9 [0x72, 0x31, 0x32, 0x33, 0x32] = errK .truncatedInput := by decide
/-- T33, T36 -/
theorem test_tx_ext_remote :
    ran 9 [0x52, 0x30, 0x30, 0x31, 0x41, 0x42, 0x43, 0x44, 0x45, 0x30] = okC (.transmit (frame .remote .extended 0x1ABCDE 0 [])) ∧
    ran 9 [0x52, 0x31, 0x46, 0x46, 0x46, 0x46, 0x46, 0x46, 0x46, 0x31, 0x30, 0x30] = okC (.transmit (frame .remote .extended 0x1FFFFFFF 1 [0x00])) := by decide
/-- T34, T35 -/
theorem test_tx_ext_remote_errors :
    ran 9 [0x52, 0x31, 0x41, 0x42, 0x43, 0x44, 0x45, 0x30] = errK .truncatedInput ∧
    ran 9 [0x52, 0x30, 0x30, 0x30, 0x30, 0x30, 0x30, 0x30, 0x30, 0x38] = errK .truncatedInput := by decide

/-! ## Frame Encoder (2.2, program P2) -/

/-- S1, P2 step 1 -/
theorem test_enc_std_data : sent (frame .data .standard 0x123 2 [0xAB, 0xCD]) =
    some (some (.ok (.length 10)),
      [0x74, 0x31, 0x32, 0x33, 0x32, 0x41, 0x42, 0x43, 0x44, 0x0D] ++ List.replicate 17 0xEE) := by decide
/-- E16 -/
theorem test_enc_std_data_bytes : sent (frame .data .standard 0xA0 1 [0x09]) =
    some (some (.ok (.length 8)),
      [0x74, 0x30, 0x41, 0x30, 0x31, 0x30, 0x39, 0x0D] ++ List.replicate 19 0xEE) := by decide
/-- E4, P2 step 6 -/
theorem test_enc_ext_data : sent (frame .data .extended 0x1FFFFFFF 8 [0xFF, 0xFF, 0xFF, 0xFF, 0xFF, 0xFF, 0xFF, 0xFF]) =
    some (some (.ok (.length 27)),
      [0x54, 0x31, 0x46, 0x46, 0x46, 0x46, 0x46, 0x46, 0x46, 0x38, 0x46, 0x46, 0x46, 0x46, 0x46, 0x46, 0x46, 0x46, 0x46, 0x46, 0x46, 0x46, 0x46, 0x46, 0x46, 0x46, 0x0D]) := by decide
/-- E9 -/
theorem test_enc_std_remote : sent (frame .remote .standard 0x5 3 [0xDE, 0xAD, 0x0F]) =
    some (some (.ok (.length 12)),
      [0x72, 0x30, 0x30, 0x35, 0x33, 0x44, 0x45, 0x41, 0x44, 0x30, 0x46, 0x0D] ++ List.replicate 15 0xEE) := by decide
/-- S5 corrected, P2 step 2 -/
theorem test_enc_ext_remote : sent (frame .remote .extended 0x1ABCDE 0 []) =
    some (some (.ok (.length 11)),
      [0x52, 0x30, 0x30, 0x31, 0x41, 0x42, 0x43, 0x44, 0x45, 0x30, 0x0D] ++ List.replicate 16 0xEE) := by decide
/-- E3, E5, E6: OUT untouched -/
theorem test_enc_errors_identifier :
    sent (frame .data .standard 0x800 0 []) = some (some (.err .identifierOutOfRange), List.replicate 27 0xEE) ∧
    sent (frame .data .extended 0x20000000 0 []) = some (some (.err .identifierOutOfRange), List.replicate 27 0xEE) ∧
    sent (frame .data .extended 0xFFFFFFFF 0 []) = some (some (.err .identifierOutOfRange), List.replicate 27 0xEE) := by decide
/-- E13, E14, E15: OUT untouched -/
theorem test_enc_errors_dlc :
    sent (frame .data .standard 0x123 9 []) = some (some (.err .invalidDlc), List.replicate 27 0xEE) ∧
    sent (frame .data .standard 0x123 15 []) = some (some (.err .invalidDlc), List.replicate 27 0xEE) ∧
    sent (frame .data .standard 0xFFF 15 []) = some (some (.err .identifierOutOfRange), List.replicate 27 0xEE) := by decide

/-- R32, R43: an output buffer of 26 bytes, and a shared one of 27. -/
theorem test_enc_refused :
    step (withCall 9 (.encode (frame .data .standard 0 0 []) (some ⟨[], 26, true⟩))) = .refused .outBufferTooSmall ∧
    step (withCall 9 (.encode (frame .data .standard 0 0 []) (some ⟨[], 27, false⟩))) = .refused .bufferShared :=
  ⟨rfl, rfl⟩
/-- R155, R43: a length beyond the LINE that stands, and a shared line buffer. -/
theorem test_decode_refused : step (withCall 9 (.decode none 1)) = .refused .lengthBeyondBuffer ∧
    step (withCall 9 (.decode (some ⟨[], 1, false⟩) 1)) = .refused .bufferShared := ⟨rfl, rfl⟩

/-! ## Hex/Nibble Codec (2.1) -/

/-- What HEX2NIB returns for a byte. -/
def nibbleOf (c : Byte) : Option (Option (Result Value)) := resultOf (step (withCall 9 (.hex2nib c)))
/-- What NIB2HEX returns for a nibble. -/
def byteOf (v : Nibble) : Option (Option (Result Value)) := resultOf (step (withCall 9 (.nib2hex v)))

/-- The table's second row. -/
theorem test_hex2nib_digits :
    nibbleOf 0x30 = some (some (.ok (.nibble 0))) ∧
    nibbleOf 0x31 = some (some (.ok (.nibble 1))) ∧
    nibbleOf 0x32 = some (some (.ok (.nibble 2))) ∧
    nibbleOf 0x33 = some (some (.ok (.nibble 3))) ∧
    nibbleOf 0x34 = some (some (.ok (.nibble 4))) ∧
    nibbleOf 0x35 = some (some (.ok (.nibble 5))) ∧
    nibbleOf 0x36 = some (some (.ok (.nibble 6))) ∧
    nibbleOf 0x37 = some (some (.ok (.nibble 7))) ∧
    nibbleOf 0x38 = some (some (.ok (.nibble 8))) ∧
    nibbleOf 0x39 = some (some (.ok (.nibble 9))) := by decide
/-- The table's fourth and sixth rows. -/
theorem test_hex2nib_letters :
    nibbleOf 0x41 = some (some (.ok (.nibble 10))) ∧
    nibbleOf 0x42 = some (some (.ok (.nibble 11))) ∧
    nibbleOf 0x43 = some (some (.ok (.nibble 12))) ∧
    nibbleOf 0x44 = some (some (.ok (.nibble 13))) ∧
    nibbleOf 0x45 = some (some (.ok (.nibble 14))) ∧
    nibbleOf 0x46 = some (some (.ok (.nibble 15))) ∧
    nibbleOf 0x61 = some (some (.ok (.nibble 10))) ∧
    nibbleOf 0x62 = some (some (.ok (.nibble 11))) ∧
    nibbleOf 0x63 = some (some (.ok (.nibble 12))) ∧
    nibbleOf 0x64 = some (some (.ok (.nibble 13))) ∧
    nibbleOf 0x65 = some (some (.ok (.nibble 14))) ∧
    nibbleOf 0x66 = some (some (.ok (.nibble 15))) := by decide
/-- The boundary bytes outside the ranges. -/
theorem test_hex2nib_rejects : ∀ c ∈ [(0x00 : Byte), 0x03, 0x0D, 0x2F, 0x3A, 0x40, 0x47, 0x60, 0x67, 0xFF],
    nibbleOf c = errK .invalidCharacter := by decide
/-- Inputs 0 to 9. -/
theorem test_nib2hex_digits :
    byteOf 0 = some (some (.ok (.byte 0x30))) ∧
    byteOf 1 = some (some (.ok (.byte 0x31))) ∧
    byteOf 2 = some (some (.ok (.byte 0x32))) ∧
    byteOf 3 = some (some (.ok (.byte 0x33))) ∧
    byteOf 4 = some (some (.ok (.byte 0x34))) ∧
    byteOf 5 = some (some (.ok (.byte 0x35))) ∧
    byteOf 6 = some (some (.ok (.byte 0x36))) ∧
    byteOf 7 = some (some (.ok (.byte 0x37))) ∧
    byteOf 8 = some (some (.ok (.byte 0x38))) ∧
    byteOf 9 = some (some (.ok (.byte 0x39))) := by decide
/-- Inputs 10 to 15. -/
theorem test_nib2hex_letters :
    byteOf 10 = some (some (.ok (.byte 0x41))) ∧
    byteOf 11 = some (some (.ok (.byte 0x42))) ∧
    byteOf 12 = some (some (.ok (.byte 0x43))) ∧
    byteOf 13 = some (some (.ok (.byte 0x44))) ∧
    byteOf 14 = some (some (.ok (.byte 0x45))) ∧
    byteOf 15 = some (some (.ok (.byte 0x46))) := by decide

/-! ## Replies and codes -/

/-- R122 with D17: program P1 step 6. -/
theorem test_version_reply : versionReply [0x56, 0x31] = [0x56, 0x31, 0x0D] := by decide
/-- R123 with D16: program P1 step 10. -/
theorem test_error_reply : errorReply 32 0xA4 = [0x30, 0x30, 0x30, 0x30, 0x30, 0x30, 0x41, 0x34, 0x0D] := by decide
/-- R131 (D9) and R18 (D10): first and last codes. -/
theorem test_codes : errorCode .invalidCharacter = 0 ∧ errorCode .identifierOutOfRange = 5 ∧ commandTag .opened = 0 ∧
    commandTag (.transmit (frame .data .standard 0 0 [])) = 7 := by decide

/-! ## Witnesses: a state and operands that meet the hypotheses of each statement, each clause at its boundary -/

/-- Reset with one DECODE call of a fresh buffer. -/
def lineState (bytes : List Byte) : State := withCall 9 (Call.ofImage (.line bytes))
/-- Reset with one ENCODE call into `ee27`. -/
def frameState (F : CanFrame) : State := withCall 9 (.encode F (some ee27))
/-- Reset whose OUT is `ee27`. -/
def outState : State := { State.reset with out := ee27 }
def std (id : IdWord) (dlc : Nibble) : CanFrame := frame .data .standard id dlc [0xAB, 0xCD]
def ext (id : IdWord) (dlc : Nibble) : CanFrame := frame .remote .extended id dlc [0xAB, 0xCD]

theorem test_fresh_line (bytes : List Byte) : FreshDecode (lineState bytes) (Buffer.ofBytes bytes) bytes.length [] :=
  ⟨rfl, rfl, Nat.le_refl _⟩
theorem test_fresh_frame (F : CanFrame) : FreshEncode (frameState F) F ee27 [] := ⟨rfl, rfl, by decide⟩

theorem test_witness_Nib2HexCallReturnsDigit : (withCall 9 (.nib2hex 15)).calls = .nib2hex 15 :: [] := rfl
theorem test_witness_Hex2NibCallIsTotal :
    ∀ c ∈ [(0x2F : Byte), 0x30, 0x39, 0x3A, 0x40, 0x41, 0x46, 0x47, 0x60, 0x61, 0x66, 0x67],
      (withCall 9 (.hex2nib c)).calls = .hex2nib c :: [] := fun _ _ => rfl
theorem test_witness_NibbleConversionsAreInverse : hex2nib 0x62 = .ok 11 ∧ hex2nib 0x42 = .ok 11 ∧
    (0x42 : Byte).toNat < 0x61 ∧ 0x61 ≤ (0x62 : Byte).toNat ∧ (0x62 : Byte).toNat ≤ 0x66 := by decide
theorem test_witness_EncodeOfDecodeIsUppercase : decode (.line [0x61, 0x66]) = .ok (.autoLowerA [15]) := by decide
theorem test_witness_StepRunsTheDecodedInstruction :
    ((lineState [0x4F]).begin (Call.ofImage (.line [0x4F])) []).lineRefusal (Call.ofImage (.line [0x4F])) = none ∧
    decode (((lineState [0x4F]).begin (Call.ofImage (.line [0x4F])) []).fetchImage (Call.ofImage (.line [0x4F]))) =
      .ok (.openO []) ∧
    decode (((lineState [0x67]).begin (Call.ofImage (.line [0x67])) []).fetchImage (Call.ofImage (.line [0x67]))) =
      .err .unknownCommand ∧
    State.reset.calls = [] := by decide
theorem test_witness_UnknownCommandExactly : FreshDecode (lineState [0x67]) (Buffer.ofBytes [0x67]) 1 [] ∧
    ran 9 [0x67] = errK .unknownCommand ∧ ran 9 [0x4F] = okC .opened ∧ ran 9 [] = errK .truncatedInput ∧
    (withCall 9 (.nib2hex 0)).calls = .nib2hex 0 :: [] ∧ (∀ b n, Call.nib2hex 0 ≠ .decode b n) ∧
    ∃ t, step (withCall 9 (.nib2hex 0)) = .next t :=
  ⟨test_fresh_line [0x67], by decide, by decide, by decide, rfl, (by simp), _, rfl⟩
theorem test_witness_InvalidCharacterExactly :
    FreshDecode (lineState [0x4F, 0x78]) (Buffer.ofBytes [0x4F, 0x78]) 2 [] ∧
    ran 9 [0x4F, 0x78] = errK .invalidCharacter ∧ ran 9 [0x58, 0x78] = errK .unknownCommand ∧
    nibbleOf 0x67 = errK .invalidCharacter ∧ nibbleOf 0x66 = some (some (.ok (.nibble 15))) ∧
    (∃ t, step (frameState (std 0x123 2)) = .next t) ∧ ∃ t, step (withCall 9 (.nib2hex 0)) = .next t :=
  ⟨test_fresh_line [0x4F, 0x78], by decide, by decide, by decide, by decide, ⟨_, rfl⟩, _, rfl⟩
/-- Each kind on its own side of its boundary: `S9`, `S8`, `t7FF9`, `t7FF8`, `S`, `t7FF`, `t800`, and the two ENCODE kinds. -/
theorem test_witness_RemainingErrorKindsExactly :
    ran 9 [0x53, 0x39] = errK .invalidBitrate ∧ ran 9 [0x53, 0x38] = okC (.setBitrate 8) ∧
    ran 9 [0x74, 0x37, 0x46, 0x46, 0x39] = errK .invalidDlc ∧
    ran 9 [0x74, 0x37, 0x46, 0x46, 0x38] = errK .truncatedInput ∧ ran 9 [0x53] = errK .truncatedInput ∧
    ran 9 [0x74, 0x37, 0x46, 0x46] = errK .truncatedInput ∧
    ran 9 [0x74, 0x38, 0x30, 0x30] = errK .identifierOutOfRange ∧
    FreshEncode (frameState (std 0x800 9)) (std 0x800 9) ee27 [] ∧
    resultOf (step (frameState (std 0x800 9))) = errK .identifierOutOfRange ∧
    resultOf (step (frameState (std 0x7FF 9))) = errK .invalidDlc :=
  ⟨by decide, by decide, by decide, by decide, by decide, by decide, by decide, test_fresh_frame _, by decide, by decide⟩
theorem test_witness_SurplusIsValidatedThenIgnored : Instr.txStdData ∈ lineForms ∧
    Instr.wellFormed (.txStdData [1, 2, 3, 0]) = true ∧ decodeLine [0x4F] = .ok (.openO []) ∧
    HexDigit 0x66 ∧ ¬ HexDigit 0x67 ∧ decodeLine [0x4F, 0x66] = .ok (.openO [15]) :=
  ⟨.tail _ (.tail _ (.tail _ (.tail _ (.tail _ (.tail _ (.tail _ (.tail _ (.tail _ (.head _))))))))), by decide, by decide,
    by unfold HexDigit; decide, by unfold HexDigit; decide, by decide⟩
theorem test_witness_DecodeLeavesLineOutsideBody : FreshDecode (lineState [0x53, 0x33]) (Buffer.ofBytes [0x53, 0x33]) 2 [] :=
  test_fresh_line [0x53, 0x33]
/-- Two buffers that agree below the length and differ at it. -/
theorem test_witness_DecodeResultIsPure :
    FreshDecode (withCall 9 (.decode (some (Buffer.ofBytes [0x4F, 0x31])) 1)) (Buffer.ofBytes [0x4F, 0x31]) 1 [] ∧
    FreshDecode (withCall 9 (.decode (some (Buffer.ofBytes [0x4F, 0x32])) 1)) (Buffer.ofBytes [0x4F, 0x32]) 1 [] ∧
    ∀ a, a < 1 → Memory.read (Buffer.ofBytes [0x4F, 0x31]).bytes a = Memory.read (Buffer.ofBytes [0x4F, 0x32]).bytes a :=
  ⟨⟨rfl, rfl, by decide⟩, ⟨rfl, rfl, by decide⟩, by decide⟩
/-- A shared buffer and a too short one, brought by the call and standing in LINE. -/
theorem test_witness_DecodeRefusesBrokenContract :
    (withCall 9 (.decode (some ⟨[], 0, false⟩) 0)).calls = .decode (some ⟨[], 0, false⟩) 0 :: [] ∧
    (withCall 9 (.decode (some ⟨[], 0, true⟩) 1)).calls = .decode (some ⟨[], 0, true⟩) 1 :: [] ∧
    ({ withCall 9 (.decode none 0) with line := ⟨[], 0, false⟩ } : State).line.exclusive = false ∧
    (withCall 9 (.decode none 1)).line.exclusive = true ∧ (withCall 9 (.decode none 1)).line.capacity < 1 :=
  ⟨rfl, rfl, rfl, rfl, by decide⟩
theorem test_witness_SetBitrateChecksTheBound : (8 : Nibble).toNat < State.reset.params.canBitrateInvalid ∧
    State.reset.params.canBitrateInvalid ≤ (9 : Nibble).toNat := by decide
/-- Each clause for `W = 3`: L = 2; 0x800; L = 3 with 0x7FF; DLC 9; DLC 8 and 15 digits; DLC 8 and 16 digits. -/
theorem test_witness_TransmitFollowsTheSteps_standard :
    ([0, 0] : List Nibble).length < 3 ∧ 0x7FF < idValue 3 [8, 0, 0] ∧ idValue 3 [7, 15, 15] ≤ 0x7FF ∧
    8 < (([7, 15, 15, 9] : List Nibble).getD 3 0).toNat ∧ (([7, 15, 15, 8] : List Nibble).getD 3 0).toNat ≤ 8 ∧
    ([7, 15, 15, 8] ++ List.replicate 15 (0 : Nibble)).length < 3 + 1 + 2 * 8 ∧
    3 + 1 + 2 * 8 ≤ ([7, 15, 15, 8] ++ List.replicate 16 (0 : Nibble)).length := by decide
/-- Each clause for `W = 8`: L = 7; 0x20000000; L = 8 with 0x1FFFFFFF; DLC 9; DLC 1 and 1 digit; DLC 1 and 2 digits. -/
theorem test_witness_TransmitFollowsTheSteps_extended :
    ([0, 0, 0, 0, 0, 0, 0] : List Nibble).length < 8 ∧ 0x1FFFFFFF < idValue 8 [2, 0, 0, 0, 0, 0, 0, 0] ∧
    idValue 8 [1, 15, 15, 15, 15, 15, 15, 15] ≤ 0x1FFFFFFF ∧
    8 < (([1, 15, 15, 15, 15, 15, 15, 15, 9] : List Nibble).getD 8 0).toNat ∧
    ([1, 15, 15, 15, 15, 15, 15, 15, 1, 0] : List Nibble).length < 8 + 1 + 2 * 1 ∧
    8 + 1 + 2 * 1 ≤ ([1, 15, 15, 15, 15, 15, 15, 15, 1, 0, 0] : List Nibble).length := by decide
theorem test_witness_DeliveredFramesAreWellFormed :
    resultOf (exec (.txStdData [7, 15, 15, 0]) State.reset) = okC (.transmit (frame .data .standard 0x7FF 0 [])) := by decide
theorem test_witness_GrammarIsWhatSucceeds : resultOf (exec (.setBitrateS [8]) State.reset) = okC (.setBitrate 8) ∧
    resultOf (exec (.setBitrateS [9]) State.reset) = errK .invalidBitrate ∧
    resultOf (exec (.setBitrateS []) State.reset) = errK .truncatedInput := by decide
theorem test_witness_EncodeWritesTheMessage : outState.out.exclusive = true ∧ 27 ≤ outState.out.capacity ∧
    (0x7FF : IdWord).toNat ≤ 0x7FF ∧ (0x1FFFFFFF : IdWord).toNat ≤ 0x1FFFFFFF ∧ (8 : Nibble).toNat ≤ 8 := by decide
theorem test_witness_EncodeRejectsIllFormedFrames : outState.out.exclusive = true ∧ 27 ≤ outState.out.capacity ∧
    0x7FF < (0x800 : IdWord).toNat ∧ 0x1FFFFFFF < (0x20000000 : IdWord).toNat ∧ 8 < (9 : Nibble).toNat := by decide
/-- Carriers that agree below `dlc` = 1 and differ at it. -/
theorem test_witness_EncodeIgnoresBytesBeyondDlc : ∀ j : Fin 8, j.val < (1 : Nibble).toNat →
    (dataField [0xAB, 0xCD])[j] = (dataField [0xAB, 0xEF])[j] := by decide
theorem test_witness_EncodeRefusesSmallBuffer :
    ({ State.reset with out := ⟨[], 26, true⟩ } : State).out.exclusive = true ∧
    ({ State.reset with out := ⟨[], 26, true⟩ } : State).out.capacity < 27 ∧
    ({ State.reset with out := ⟨[], 27, false⟩ } : State).out.exclusive = false := by decide
theorem test_witness_EncodedBytesStayInTheAlphabet :
    resultOf (exec (.encStdData 0 0 (dataField [])) outState) = some (some (.ok (.length 6))) ∧
    resultOf (exec (.encExtData 0x1FFFFFFF 8 (dataField [])) outState) = some (some (.ok (.length 27))) := by decide
theorem test_witness_SpacesAreSeparate :
    (∃ t, step (lineState [0x4F]) = .next t) ∧ (∃ t, step (frameState (std 0x123 2)) = .next t) ∧
    FreshEncode (frameState (std 0x123 2)) (std 0x123 2) ee27 [] ∧
    FreshEncode (withCall 9 (.encode (std 0x123 2) (some ⟨[], 27, true⟩))) (std 0x123 2) ⟨[], 27, true⟩ [] :=
  ⟨⟨_, rfl⟩, ⟨_, rfl⟩, test_fresh_frame _, ⟨rfl, rfl, by decide⟩⟩
theorem test_witness_DecodeOfEncodedFrameIsTheFrame : FreshEncode (frameState (ext 0x1FFFFFFF 8)) (ext 0x1FFFFFFF 8) ee27 [] ∧
    frameWellFormed (ext 0x1FFFFFFF 8) = true ∧ frameWellFormed (std 0 0) = true := ⟨test_fresh_frame _, by decide, by decide⟩
theorem test_witness_EncodeOfDecodedFrameIsTheLine :
    FreshDecode (lineState [0x74, 0x31, 0x32, 0x33, 0x30]) (Buffer.ofBytes [0x74, 0x31, 0x32, 0x33, 0x30]) 5 [] ∧
    resultOf (step (lineState [0x74, 0x31, 0x32, 0x33, 0x30])) = okC (.transmit (frame .data .standard 0x123 0 [])) ∧
    FreshEncode (frameState (frame .data .standard 0x123 0 [])) (frame .data .standard 0x123 0 []) ee27 [] :=
  ⟨test_fresh_line [0x74, 0x31, 0x32, 0x33, 0x30], by decide, test_fresh_frame _⟩
theorem test_witness_OnlyEncodeChangesMoreThanTheResult :
    (∀ f ∈ encodeForms, ∀ id dlc data, Instr.openO [] ≠ f.instr id dlc data) ∧
    ∃ t, exec (.openO []) State.reset = .next t := by
  refine ⟨?_, _, rfl⟩
  intro f hf id dlc data h
  simp only [encodeForms, List.cons_append, List.nil_append, List.mem_cons, List.not_mem_nil, or_false] at hf
  rcases hf with rfl | rfl | rfl | rfl <;> cases h
/-- Each operation and each group of leading bytes fails somewhere with each kind R138 gives it. -/
theorem test_witness_ErrorKindsByOperation :
    nibbleOf 0x67 = errK .invalidCharacter ∧
    resultOf (step (frameState (std 0x800 0))) = errK .identifierOutOfRange ∧
    resultOf (step (frameState (std 0 9))) = errK .invalidDlc ∧
    ran 9 [] = errK .truncatedInput ∧ ran 9 [0x4F, 0x78] = errK .invalidCharacter ∧
    ran 9 [0x53, 0x39] = errK .invalidBitrate ∧ ran 9 [0x4D] = errK .truncatedInput ∧
    ran 9 [0x74, 0x38, 0x30, 0x30] = errK .identifierOutOfRange ∧ ran 9 [0x67] = errK .unknownCommand := by decide
theorem test_witness_OneCallOneResult : (lineState [0x4F]).calls = Call.ofImage (.line [0x4F]) :: [] ∧
    ∃ t, step (lineState [0x4F]) = .next t := ⟨rfl, _, rfl⟩
/-- The same call in two states that differ in the session that follows and in the other buffer. -/
theorem test_witness_CallsAreIndependent :
    (lineState [0x4F]).calls = Call.ofImage (.line [0x4F]) :: [] ∧
    ({ outState with calls := [Call.ofImage (.line [0x4F]), .nib2hex 0] } : State).calls =
      Call.ofImage (.line [0x4F]) :: [.nib2hex 0] ∧
    (lineState [0x4F]).params = ({ outState with calls := [Call.ofImage (.line [0x4F]), .nib2hex 0] } : State).params ∧
    ∀ b n, Call.ofImage (.line [0x4F]) = .decode b n → b.getD (lineState [0x4F]).line = b.getD outState.line :=
  ⟨rfl, rfl, rfl, fun b n h => by cases h; rfl⟩
theorem test_witness_ParametersAreConstant : ∃ t, step (lineState [0x4F]) = .next t := ⟨_, rfl⟩
/-- The invariant holds of a state with a pending call, and that state steps. -/
theorem test_witness_StepKeepsTheInvariant : (lineState [0x53, 0x33]).Inv ∧ ∃ t, step (lineState [0x53, 0x33]) = .next t := by
  refine ⟨⟨by decide, by decide, ?_, by decide, trivial⟩, _, rfl⟩
  intro c hc
  cases hc with
  | head => intro x hx; cases hx; decide
  | tail _ h => cases h
theorem test_witness_ContractedSessionNeverStops : (lineState [0x4F]).KeepsContract := by
  refine ⟨?_, rfl, by decide⟩
  intro c hc
  cases hc with
  | head => exact ⟨_, rfl, rfl, Nat.le_refl _⟩
  | tail _ h => cases h
theorem test_witness_ResultsReachTheirConsumers :
    ({ State.reset with result := some (.err .unknownCommand) } : State).result = some (.err .unknownCommand) ∧
    ({ State.reset with result := some (.ok (.length 6)) } : State).result = some (.ok (.length 6)) ∧
    ({ State.reset with result := some (.ok (.command .opened)) } : State).result = some (.ok (.command .opened)) :=
  ⟨rfl, rfl, rfl⟩

end Sys2Proof.Tests
end

section
/-! SUPPORT. Proofs of the statements about the state (10_state.md): what a call's result depends on, what a step leaves
unchanged, and what holds at reset. -/

namespace Sys2Proof.Machine

open Sys2Proof.Spec

/-! ## The state a call begins in -/

@[simp] theorem State.begin_params (c : Call) (rest : List Call) (s : State) :
    (s.begin c rest).params = s.params := by
  simp [State.begin]

@[simp] theorem State.begin_encode_out (F : CanFrame) (b : Option Buffer) (rest : List Call) (s : State) :
    (s.begin (.encode F b) rest).out = b.getD s.out := rfl

/-! ## The result of a call as a function of its inputs -/

/-- Of the whole state, ENCODE's result depends on OUT alone: its ownership and capacity (R32, R43). -/
theorem resultOf_encodeFrame_congr (F : CanFrame) {s u : State} (h : s.out = u.out) :
    resultOf (s.encodeFrame F) = resultOf (u.encodeFrame F) := by
  unfold State.encodeFrame
  rw [h]
  split
  · rfl
  · split
    · rfl
    · cases frameError F <;> rfl

/-- A DECODE call's result depends on its length, its line and the bitrate bound (R87). -/
theorem resultOf_step_decode {s : State} {b : Option Buffer} {n : Nat} {rest : List Call}
    (h : s.calls = .decode b n :: rest) :
    resultOf (step s) =
      if (b.getD s.line).exclusive = true ∧ n ≤ (b.getD s.line).capacity then
        some (some (commandResult (decodeCommand s.params.canBitrateInvalid
          (Memory.readBytes (b.getD s.line).bytes 0 n))))
      else none := by
  rcases step_decode h with ⟨e, hx⟩ | ⟨e, hx, hc⟩ | ⟨hx, hc, e⟩
  · simp [e, hx, resultOf]
  · simp [e, hc, resultOf]
  · simp [e, hx, hc, resultOf]

/-- Two states that agree on the parameters and on the buffer a call uses give that call the same result (R142, R146). -/
theorem resultOf_step_congr {s u : State} {c : Call} {rest rest' : List Call}
    (hs : s.calls = c :: rest) (hu : u.calls = c :: rest') (hp : s.params = u.params)
    (hline : ∀ b n, c = .decode b n → b.getD s.line = b.getD u.line)
    (hout : ∀ F b, c = .encode F b → b.getD s.out = b.getD u.out) :
    resultOf (step s) = resultOf (step u) := by
  cases c with
  | nib2hex v => rw [step_nib2hex hs, step_nib2hex hu, callNib2hex_eq, callNib2hex_eq]; rfl
  | hex2nib byte => rw [step_hex2nib hs, step_hex2nib hu, callHex2nib_eq, callHex2nib_eq]; rfl
  | encode F b =>
    rw [step_encode hs, step_encode hu]
    exact resultOf_encodeFrame_congr F (by simpa using hout F b rfl)
  | decode b n => rw [resultOf_step_decode hs, resultOf_step_decode hu, hline b n rfl, hp]

/-- Settles O35: reset with the same parameters and buffers agrees with the state on everything the call's result
depends on. -/
theorem firstCallAfterResetIsLikeAnyOther : Obligations.FirstCallAfterResetIsLikeAnyOther := by
  intro s c rest
  exact resultOf_step_congr rfl rfl rfl (fun _ _ _ => rfl) (fun _ _ _ => rfl)

/-! ## What a step leaves unchanged -/

/-- Where ENCODE completes it has raised an error or emitted the frame (R80). -/
theorem encodeFrame_next_cases {F : CanFrame} {s t : State} (h : s.encodeFrame F = .next t) :
    (∃ k, t = s.raise k) ∨ t = s.emitFrame F := by
  rcases encodeFrame_cases F s with ⟨e, _⟩ | ⟨e, _⟩ | ⟨_, _, _, e⟩ | ⟨_, _, _, _, e⟩ | ⟨_, _, _, _, e⟩ <;>
    rw [e] at h <;> cases h
  · exact .inl ⟨_, rfl⟩
  · exact .inl ⟨_, rfl⟩
  · exact .inr rfl

theorem encodeFrame_params {F : CanFrame} {s t : State} (h : s.encodeFrame F = .next t) : t.params = s.params := by
  obtain ⟨k, rfl⟩ | rfl := encodeFrame_next_cases h
  · rfl
  · rfl

/-- Settles O36, call by call: no operation writes a parameter. -/
theorem parametersAreConstant : Obligations.ParametersAreConstant := by
  intro s t h
  cases hcalls : s.calls with
  | nil => rw [step_idle hcalls] at h; cases h; rfl
  | cons c rest =>
    cases c with
    | nib2hex v => rw [step_nib2hex hcalls, callNib2hex_eq] at h; cases h; rfl
    | hex2nib byte => rw [step_hex2nib hcalls, callHex2nib_eq] at h; cases h; rfl
    | encode F b =>
      rw [step_encode hcalls] at h
      rw [encodeFrame_params h, State.begin_params]
    | decode b n =>
      rcases step_decode hcalls with ⟨e, _⟩ | ⟨e, _⟩ | ⟨_, _, e⟩ <;> rw [e] at h <;> cases h
      rfl

/-! ## The reset state -/

/-- Settles O37: both buffers are empty, no call is pending, the register is 0 and there is no result. -/
theorem resetMeetsTheInvariant : Obligations.ResetMeetsTheInvariant where
  lineWf := ⟨Memory.wf_nil, nofun⟩
  outWf := ⟨Memory.wf_nil, nofun⟩
  callsWf := nofun
  registerFits := Nat.two_pow_pos _
  resultFits := trivial

end Sys2Proof.Machine
end

section
/-! SUPPORT. Proofs of the statements about the two spaces (20_memory.md): the invariant of the machine, what a step runs,
what DECODE leaves in LINE, what ENCODE writes to OUT, and which calls are refused. -/

namespace Sys2Proof.Machine

open Sys2Proof.Spec

/-! ## What keeps the invariant -/

/-- A buffer stays in canonical form under a write inside its capacity. -/
theorem Buffer.writeBytes_wf {b : Buffer} (h : b.wf) {i : Nat} {bs : List Byte}
    (hroom : ∀ a, i ≤ a → a < i + bs.length → a < b.capacity) :
    Buffer.wf { b with bytes := Memory.writeBytes b.bytes i bs } := by
  obtain ⟨hmem, hcap⟩ := h
  refine ⟨Memory.writeBytes_wf hmem i bs, fun c hc => ?_⟩
  rcases Memory.mem_writeBytes hc with hold | ⟨hlo, hhi⟩
  · exact hcap c hold
  · exact hroom c.1 hlo hhi

@[simp] theorem freeBytes_length (k n : Nat) : (freeBytes k n).length = n := by simp [freeBytes]

/-- The invariant says of the result only that it is one the spec allows. -/
theorem State.Inv.setResult {s : State} (h : s.Inv) {r : Option (Result Value)} (hr : resultOk s.params r) :
    State.Inv { s with result := r } := { h with resultFits := hr }

theorem State.Inv.raise {s : State} (h : s.Inv) (k : ErrorKind) : (s.raise k).Inv := h.setResult trivial

/-- The start of a call samples a register that fits and takes the call off the session. -/
theorem State.Inv.startCall {s : State} (h : s.Inv) {c : Call} {rest : List Call} (hc : s.calls = c :: rest) :
    (s.startCall rest).Inv where
  lineWf := h.lineWf
  outWf := h.outWf
  callsWf := fun d hd => h.callsWf d (by rw [hc]; exact List.mem_cons_of_mem c hd)
  registerFits := Nat.mod_lt _ (Nat.two_pow_pos _)
  resultFits := h.resultFits

/-- A well-formed buffer, or the one that stands already, becomes the space of the call. -/
theorem Buffer.getD_wf {b : Option Buffer} {d : Buffer} (hb : ∀ x ∈ b, x.wf) (hd : d.wf) : (b.getD d).wf := by
  cases b with
  | none => exact hd
  | some x => exact hb x rfl

theorem State.Inv.loadBuffers {s : State} (h : s.Inv) {c : Call} (hc : c.bufferWf) : (s.loadBuffers c).Inv := by
  cases c with
  | nib2hex v => exact h
  | hex2nib byte => exact h
  | encode F b => exact { h with outWf := Buffer.getD_wf hc h.outWf }
  | decode b n => exact { h with lineWf := Buffer.getD_wf hc h.lineWf }

/-- The invariant holds of the state a call's image is fetched in. -/
theorem State.Inv.begin {s : State} (h : s.Inv) {c : Call} {rest : List Call} (hc : s.calls = c :: rest) :
    (s.begin c rest).Inv :=
  (h.startCall hc).loadBuffers (h.callsWf c (by rw [hc]; exact List.mem_cons_self ..))

/-- The free bytes that DECODE leaves stand below `length` (R39), so inside the line's buffer. -/
theorem State.Inv.consumeLine {s : State} (h : s.Inv) (hlen : s.length ≤ s.line.capacity) : s.consumeLine.Inv :=
  { h with
    lineWf := Buffer.writeBytes_wf h.lineWf fun a hlo hhi => by
      rw [freeBytes_length] at hhi
      omega }

/-- A message has between 6 and 27 bytes (R33). -/
theorem message_length_bounds {F : CanFrame} (h : F.dlc.toNat ≤ 8) :
    6 ≤ (message F).length ∧ (message F).length ≤ 27 := by
  have hw := idWidth_pos F.idKind
  rw [message_length h, messageLength]
  omega

/-- The message fits an output buffer of 27 bytes (R32). -/
theorem State.Inv.emitFrame {s : State} (h : s.Inv) {F : CanFrame} (hroom : 27 ≤ s.out.capacity)
    (hdlc : F.dlc.toNat ≤ 8) : (s.emitFrame F).Inv := by
  have hlen := message_length_bounds hdlc
  exact { h with
    outWf := Buffer.writeBytes_wf h.outWf fun a _ hhi => by omega
    resultFits := hlen }

theorem State.Inv.encodeFrame {s t : State} (h : s.Inv) {F : CanFrame} (ht : s.encodeFrame F = .next t) : t.Inv := by
  rcases encodeFrame_cases F s with ⟨e, _⟩ | ⟨e, _⟩ | ⟨_, _, _, e⟩ | ⟨_, _, _, _, e⟩ | ⟨_, hroom, _, hdlc, e⟩ <;>
    rw [e] at ht <;> cases ht
  · exact h.raise _
  · exact h.raise _
  · exact h.emitFrame hroom hdlc

/-- Whatever the line, DECODE delivers a Command that the spec allows (R102, R120). -/
theorem resultOk_decodeCommand (p : Params) (bytes : List Byte) :
    resultOk p (some (commandResult (decodeCommand p.canBitrateInvalid bytes))) := by
  unfold decodeCommand
  cases decodeLine bytes with
  | err k => exact trivial
  | ok i =>
    cases hc : commandOf p.canBitrateInvalid i with
    | err k => simp only [hc]; exact trivial
    | ok c =>
      obtain ⟨hframe, hindex⟩ := commandOf_ok hc
      simp only [hc]
      cases c with
      | transmit F => exact hframe F rfl
      | setBitrate n => exact hindex n rfl
      | opened | closed | setSilentMode | setAutoRetransmit | queryVersion | queryErrorRegister => exact trivial

/-- Settles O38, call by call: the start of the call keeps the invariant, then so does what the operation does. -/
theorem stepKeepsTheInvariant : Obligations.StepKeepsTheInvariant := by
  intro s t h ht
  cases hcalls : s.calls with
  | nil => rw [step_idle hcalls] at ht; cases ht; exact h
  | cons c rest =>
    have hbegin := h.begin hcalls
    cases c with
    | nib2hex v =>
      rw [step_nib2hex hcalls, callNib2hex_eq] at ht
      cases ht
      exact hbegin.setResult trivial
    | hex2nib byte =>
      rw [step_hex2nib hcalls, callHex2nib_eq] at ht
      cases ht
      refine hbegin.setResult ?_
      cases hex2nib byte <;> exact trivial
    | encode F b => exact hbegin.encodeFrame (step_encode hcalls ▸ ht)
    | decode b n =>
      rcases step_decode hcalls with ⟨e, _⟩ | ⟨e, _⟩ | ⟨_, hlen, e⟩ <;> rw [e] at ht <;> cases ht
      exact (hbegin.consumeLine hlen).setResult (resultOk_decodeCommand s.params _)

/-! ## What a step runs -/

theorem step_cons {s : State} {c : Call} {rest : List Call} (h : s.calls = c :: rest) :
    step s = runCall c (s.begin c rest) := by
  unfold step; rw [h]

theorem runCall_of_decode_ok {s : State} {c : Call} {i : Instr} (hline : s.lineRefusal c = none)
    (hd : decode (s.fetchImage c) = .ok i) : runCall c s = exec i (s.afterFetch c) := by
  simp only [runCall, hline, hd]

theorem runCall_of_decode_err {s : State} {c : Call} {k : ErrorKind} (hline : s.lineRefusal c = none)
    (hd : decode (s.fetchImage c) = .err k) : runCall c s = .next ((s.afterFetch c).raise k) := by
  simp only [runCall, hline, hd]

/-- Settles O9: the two ends of a call, and the idle step. -/
theorem stepRunsTheDecodedInstruction : Obligations.StepRunsTheDecodedInstruction := by
  refine ⟨fun s c rest i hc hline hd => ?_, fun s c rest k hc hline hd => ?_, fun s h => step_idle h⟩
  · rw [step_cons hc, runCall_of_decode_ok hline hd]
  · rw [step_cons hc, runCall_of_decode_err hline hd]
    rfl

/-! ## DECODE and LINE -/

/-- A DECODE call that keeps the contract completes with LINE consumed and its result. -/
theorem step_freshDecode {s : State} {b : Buffer} {n : Nat} {rest : List Call} (h : FreshDecode s b n rest) :
    step s = .next { (s.begin (.decode (some b) n) rest).consumeLine with
      result := some (commandResult (decodeCommand s.params.canBitrateInvalid (Memory.readBytes b.bytes 0 n))) } := by
  obtain ⟨hcall, howned, hlen⟩ := h
  rcases step_decode hcall with ⟨_, hx⟩ | ⟨_, _, hc⟩ | ⟨_, _, e⟩
  · exact absurd (howned.symm.trans hx) (by decide)
  · exact absurd hlen (Nat.not_le.2 hc)
  · exact e

/-- DECODE writes indices 1 to `length`-1 of LINE and no other (R39). -/
theorem read_consumeLine_outside (s : State) {a : Nat} (h : a = 0 ∨ s.length ≤ a) :
    Memory.read s.consumeLine.line.bytes a = Memory.read s.line.bytes a := by
  by_cases hn : s.length = 0
  · simp [hn, freeBytes, Memory.writeBytes]
  · exact Memory.read_writeBytes_outside _ _ _ (by rw [freeBytes_length]; omega)

/-- Settles O14: the state a DECODE call ends in has the LINE of `consumeLine`. -/
theorem decodeLeavesLineOutsideBody : Obligations.DecodeLeavesLineOutsideBody := by
  intro s b n rest h
  have hread := fun a => read_consumeLine_outside (s.begin (.decode (some b) n) rest) (a := a)
  exact ⟨_, step_freshDecode h, rfl, rfl, hread 0 (.inl rfl), fun a ha => hread a (.inr ha)⟩

/-- Settles O16: of what a DECODE call can do, each breach leaves its own refusal. -/
theorem decodeRefusesBrokenContract : Obligations.DecodeRefusesBrokenContract := by
  intro s b n rest hcall
  rcases step_decode hcall with ⟨e, hx⟩ | ⟨e, hx, hc⟩ | ⟨hx, hc, e⟩
  · exact ⟨fun _ => e, fun hx' => by simp [hx] at hx'⟩
  · exact ⟨fun hx' => by simp [hx] at hx', fun _ _ => e⟩
  · exact ⟨fun hx' => by simp [hx] at hx', fun _ hc' => by omega⟩

/-! ## ENCODE and OUT -/

theorem encodeFrame_of_shared {F : CanFrame} {s : State} (hx : s.out.exclusive = false) :
    s.encodeFrame F = .refused .bufferShared := by
  simp [State.encodeFrame, hx]

theorem encodeFrame_of_small {F : CanFrame} {s : State} (hx : s.out.exclusive = true) (hsmall : s.out.capacity < 27) :
    s.encodeFrame F = .refused .outBufferTooSmall := by
  simp [State.encodeFrame, hx, outMin, hsmall]

theorem encodeFrame_of_error {F : CanFrame} {s : State} {k : ErrorKind} (hx : s.out.exclusive = true)
    (hroom : 27 ≤ s.out.capacity) (he : frameError F = some k) : s.encodeFrame F = .next (s.raise k) := by
  simp [State.encodeFrame, hx, outMin, Nat.not_lt.2 hroom, he]

theorem encodeFrame_of_no_error {F : CanFrame} {s : State} (hx : s.out.exclusive = true)
    (hroom : 27 ≤ s.out.capacity) (he : frameError F = none) : s.encodeFrame F = .next (s.emitFrame F) := by
  simp [State.encodeFrame, hx, outMin, Nat.not_lt.2 hroom, he]

/-- The two validations pass a frame whose invariants hold (R73). -/
theorem frameError_none {F : CanFrame} (h : F.id.toNat ≤ idMax F.idKind ∧ F.dlc.toNat ≤ 8) : frameError F = none := by
  simp [frameError, idInRange, dlcInRange, h]

/-- The frame that an ENCODE form's operands stand for (R80). -/
abbrev formFrame (f : EncodeForm) (id : IdWord) (dlc : Nibble) (data : DataField) : CanFrame :=
  ⟨f.kind, f.idKind, id, dlc, data⟩

/-- Each row of the table of ENCODE forms: its meaning, and its type character, width and maximum by the model's own
tables (R59, R10). -/
theorem encodeForms_spec {f : EncodeForm} (hf : f ∈ encodeForms) :
    (∀ id dlc data s, exec (f.instr id dlc data) s = s.encodeFrame (formFrame f id dlc data)) ∧
    f.char = typeChar f.kind f.idKind ∧ f.width = idWidth f.idKind ∧ f.max = idMax f.idKind := by
  simp only [encodeForms, List.cons_append, List.nil_append, List.mem_cons, List.not_mem_nil, or_false] at hf
  rcases hf with rfl | rfl | rfl | rfl <;> exact ⟨fun _ _ _ _ => rfl, rfl, rfl, rfl⟩

/-- Settles O26: every form checks OUT before it looks at the frame. -/
theorem encodeRefusesSmallBuffer : Obligations.EncodeRefusesSmallBuffer := by
  intro f hf id dlc data s
  obtain ⟨hexec, -⟩ := encodeForms_spec hf
  rw [hexec]
  exact ⟨encodeFrame_of_shared, encodeFrame_of_small⟩

/-! ## The bytes of a message -/

@[simp] theorem message_getElem?_zero (F : CanFrame) : (message F)[0]? = some (typeChar F.frameKind F.idKind) := rfl

/-- The digits follow the type character. -/
theorem message_getElem?_digit {F : CanFrame} {k : Nat} {d : Nibble} (h : (frameDigits F)[k]? = some d) :
    (message F)[k + 1]? = some (digit d.toNat) := by
  have hk : k < ((frameDigits F).map nib2hex).length := by
    simpa using (List.getElem?_eq_some_iff.1 h).1
  rw [message, List.cons_append, List.getElem?_cons_succ, List.getElem?_append_left hk, List.getElem?_map, h]
  rfl

/-- The terminator stands last (R78). -/
theorem message_getElem?_last (F : CanFrame) : (message F)[(frameDigits F).length + 1]? = some cr := by
  simp [message]

theorem frameDigits_getElem?_id (F : CanFrame) {k : Nat} (h : k < idWidth F.idKind) :
    ∃ d : Nibble, (frameDigits F)[k]? = some d ∧ d.toNat = F.id.toNat / 16 ^ (idWidth F.idKind - 1 - k) % 16 := by
  have hk : k < (idDigits (idWidth F.idKind) F.id).length := by simpa using h
  refine ⟨_, ?_, idDigits_toNat _ F.id h⟩
  rw [frameDigits, List.getElem?_append_left hk, List.getElem?_eq_getElem hk]

theorem frameDigits_getElem?_dlc (F : CanFrame) : (frameDigits F)[idWidth F.idKind]? = some F.dlc := by
  simp [frameDigits]

/-- Behind the DLC stand the data digits (R77). -/
theorem frameDigits_getElem?_add (F : CanFrame) (k : Nat) :
    (frameDigits F)[idWidth F.idKind + 1 + k]? = (dataDigits (payload F))[k]? := by
  rw [frameDigits, List.getElem?_append_right (by simp; omega), idDigits_length,
    show idWidth F.idKind + 1 + k - idWidth F.idKind = k + 1 by omega, List.getElem?_cons_succ]

theorem highDigit_toNat (b : Byte) : (b.extractLsb' 4 4).toNat = b.toNat / 16 := by
  have hb : b.toNat < 256 := b.isLt
  rw [BitVec.extractLsb'_toNat, Nat.shiftRight_eq_div_pow]
  omega

theorem lowDigit_toNat (b : Byte) : (b.extractLsb' 0 4).toNat = b.toNat % 16 := by
  simp [BitVec.extractLsb'_toNat]

/-- High then low digit of each data byte (R56, R77). -/
theorem frameDigits_getElem?_data (F : CanFrame) (j : Fin 8) (h : j.val < F.dlc.toNat) :
    (frameDigits F)[idWidth F.idKind + 1 + 2 * j.val]? = some (F.data[j].extractLsb' 4 4) ∧
    (frameDigits F)[idWidth F.idKind + 2 + 2 * j.val]? = some (F.data[j].extractLsb' 0 4) := by
  obtain ⟨hj, hbyte⟩ := List.getElem?_eq_some_iff.1 (payload_getElem h j.isLt)
  obtain ⟨hhi, hlo⟩ := dataDigits_getElem (payload F) j.val hj
  rw [hbyte, ← frameDigits_getElem?_add] at hhi hlo
  exact ⟨hhi, by rwa [show idWidth F.idKind + 2 + 2 * j.val = idWidth F.idKind + 1 + (2 * j.val + 1) by omega]⟩

/-- What ENCODE has written is read back, whatever OUT held (R33, R34). -/
theorem read_written_message (m : Memory) {F : CanFrame} {k : Nat} {b : Byte} (h : (message F)[k]? = some b) :
    Memory.read (Memory.writeBytes m 0 (message F)) k = b := by
  obtain ⟨hk, rfl⟩ := List.getElem?_eq_some_iff.1 h
  simpa using Memory.read_writeBytes_listed m 0 (message F) (message_listed F) hk

/-- A digit of the frame stands in OUT one place further, behind the type character. -/
theorem read_written_digit (m : Memory) {F : CanFrame} {k a : Nat} {d : Nibble} (h : (frameDigits F)[k]? = some d)
    (ha : a = k + 1) : Memory.read (Memory.writeBytes m 0 (message F)) a = digit d.toNat :=
  ha ▸ read_written_message m (message_getElem?_digit h)

/-- The terminator stands in OUT one place behind the last digit (R78). -/
theorem read_written_last (m : Memory) {F : CanFrame} {a : Nat} (ha : a = (frameDigits F).length + 1) :
    Memory.read (Memory.writeBytes m 0 (message F)) a = cr :=
  ha ▸ read_written_message m (message_getElem?_last F)

/-- Settles O23: the OUT of `emitFrame`, read at the place of each part of the message. -/
theorem encodeWritesTheMessage : Obligations.EncodeWritesTheMessage := by
  intro f hf id dlc data s hx hroom hid hdlc
  obtain ⟨hexec, hchar, hwidth, hmax⟩ := encodeForms_spec hf
  have hlen : (message (formFrame f id dlc data)).length = idWidth f.idKind + 2 * dlc.toNat + 3 := message_length hdlc
  have hdigits : (frameDigits (formFrame f id dlc data)).length = idWidth f.idKind + 1 + 2 * dlc.toNat :=
    frameDigits_length hdlc
  rw [hexec, hchar, hwidth]
  refine ⟨Memory.writeBytes s.out.bytes 0 (message (formFrame f id dlc data)),
    ?_, ?_, fun k hk => ?_, ?_, fun j hj => ?_, ?_, fun a ha => ?_⟩
  · rw [encodeFrame_of_no_error hx hroom (frameError_none ⟨hmax ▸ hid, hdlc⟩), ← hlen]
    rfl
  · exact read_written_message _ (message_getElem?_zero _)
  · obtain ⟨d, hd, hval⟩ := frameDigits_getElem?_id (formFrame f id dlc data) hk
    rw [read_written_digit _ hd (by omega), hval]
  · exact read_written_digit _ (frameDigits_getElem?_dlc _) rfl
  · obtain ⟨hhi, hlo⟩ := frameDigits_getElem?_data (formFrame f id dlc data) j hj
    rw [← highDigit_toNat, ← lowDigit_toNat]
    exact ⟨read_written_digit _ hhi (by dsimp only; omega), read_written_digit _ hlo (by dsimp only; omega)⟩
  · exact read_written_last _ (by omega)
  · exact Memory.read_writeBytes_outside _ _ _ (by omega)

/-! ## The two spaces are separate -/

/-- ENCODE of one frame into two lawful buffers ends alike, and writes alike (R34). -/
theorem encodeFrame_independent_of_out (F : CanFrame) {s u : State} (hs : s.out.exclusive = true)
    (hs27 : 27 ≤ s.out.capacity) (hu : u.out.exclusive = true) (hu27 : 27 ≤ u.out.capacity) :
    ∃ t v, s.encodeFrame F = .next t ∧ u.encodeFrame F = .next v ∧ t.result = v.result ∧
      ∀ n, t.result = some (.ok (.length n)) → ∀ a, a < n →
        Memory.read t.out.bytes a = Memory.read v.out.bytes a := by
  cases he : frameError F with
  | some k => exact ⟨_, _, encodeFrame_of_error hs hs27 he, encodeFrame_of_error hu hu27 he, rfl, nofun⟩
  | none =>
    refine ⟨_, _, encodeFrame_of_no_error hs hs27 he, encodeFrame_of_no_error hu hu27 he, rfl, fun n hn a ha => ?_⟩
    cases hn
    have hbyte := List.getElem?_eq_getElem ha
    exact (read_written_message _ hbyte).trans (read_written_message _ hbyte).symm

/-- Settles O28: DECODE writes LINE alone, ENCODE writes OUT alone, and reads neither space. -/
theorem spacesAreSeparate : Obligations.SpacesAreSeparate := by
  refine ⟨fun s t b n rest hcall ht => ?_, fun s t F b rest hcall ht => ?_, fun s u F b d rest rest' hs hu => ?_⟩
  · rcases step_decode hcall with ⟨e, _⟩ | ⟨e, _⟩ | ⟨_, _, e⟩ <;> rw [e] at ht <;> cases ht
    rfl
  · rw [step_encode hcall] at ht
    obtain ⟨k, rfl⟩ | rfl := encodeFrame_next_cases ht
    · exact ⟨rfl, rfl⟩
    · exact ⟨rfl, rfl⟩
  · rw [step_encode hs.call, step_encode hu.call]
    exact encodeFrame_independent_of_out F hs.owned hs.room hu.owned hu.room

end Sys2Proof.Machine
end

section
/-! SUPPORT. Proofs of the statements about the encodings (30_encoding.md): decoder and encoder are inverse, what the
common part of DECODE rejects and by which name, and that the grammar is what succeeds. -/

namespace Sys2Proof.Machine

open Sys2Proof.Spec

/-! ## The decoder after the encoder -/

/-- A line that Phase 1 and Phase 2 accept is its row with the converted body (R89 to R92). -/
theorem decodeLine_of_body {c0 : Byte} {mk : List Nibble → Instr} {rest : List Byte} {body : List Nibble}
    (hm : leadingByte c0 = some mk) (hb : hexBody rest = .ok body) : decodeLine (c0 :: rest) = .ok (mk body) := by
  simp [decodeLine, hm, hb]

theorem decode_line_of_body {c0 : Byte} {mk : List Nibble → Instr} {rest : List Byte} {body : List Nibble}
    (hm : leadingByte c0 = some mk) (hb : hexBody rest = .ok body) : decode (.line (c0 :: rest)) = .ok (mk body) :=
  decodeLine_of_body hm hb

theorem decode_lineOf {c0 : Byte} {mk : List Nibble → Instr} (hm : leadingByte c0 = some mk) (body : List Nibble) :
    decode (lineOf c0 body) = .ok (mk body) :=
  decode_line_of_body hm (hexBody_map_nib2hex body)

/-- Settles O6, row by row: a line's leading byte selects its row and its digits are read back; a frame, a character and a
nibble select theirs at once. -/
theorem decodeOfEncodeIsIdentity : Obligations.DecodeOfEncodeIsIdentity := by
  intro i
  cases i with
  | openO body => exact decode_lineOf leadingByte_charO body
  | closeC body => exact decode_lineOf leadingByte_charC body
  | setBitrateS body => exact decode_lineOf leadingByte_charS body
  | silentUpperM body => exact decode_lineOf leadingByte_charUpperM body
  | silentLowerM body => exact decode_lineOf leadingByte_charLowerM body
  | autoUpperA body => exact decode_lineOf leadingByte_charUpperA body
  | autoLowerA body => exact decode_lineOf leadingByte_charLowerA body
  | versionV body => exact decode_lineOf leadingByte_charV body
  | errorE body => exact decode_lineOf leadingByte_charE body
  | txStdData body => exact decode_lineOf leadingByte_charLowerT body
  | txExtData body => exact decode_lineOf leadingByte_charUpperT body
  | txStdRemote body => exact decode_lineOf leadingByte_charLowerR body
  | txExtRemote body => exact decode_lineOf leadingByte_charUpperR body
  | encStdData | encExtData | encStdRemote | encExtRemote => rfl
  | hexDigit0 | hexDigit1 | hexDigit2 | hexDigit3 | hexDigit4 | hexDigit5 | hexDigit6 | hexDigit7 => rfl
  | hexDigit8 | hexDigit9 | hexUpperA | hexUpperB | hexUpperC | hexUpperD | hexUpperE | hexUpperF => rfl
  | hexLowerA | hexLowerB | hexLowerC | hexLowerD | hexLowerE | hexLowerF | nibble0 | nibble1 => rfl
  | nibble2 | nibble3 | nibble4 | nibble5 | nibble6 | nibble7 | nibble8 | nibble9 => rfl
  | nibble10 | nibble11 | nibble12 | nibble13 | nibble14 | nibble15 => rfl

/-- Settles O8: each line by its leading byte and its digits, the character and the nibble by their rows. -/
theorem decodedWordsAreTheirRows : Obligations.DecodedWordsAreTheirRows :=
  ⟨decode_line_of_body leadingByte_charO rfl, decode_line_of_body leadingByte_charS rfl,
    decode_line_of_body leadingByte_charLowerA rfl, decode_line_of_body leadingByte_charLowerT rfl,
    decode_line_of_body leadingByte_charUpperR rfl, rfl, rfl⟩

/-! ## The encoder after the decoder -/

/-- The encoder writes a row's leading byte and then its body (R46). -/
theorem encode_leading {c0 : Byte} {mk : List Nibble → Instr} (h : leadingByte c0 = some mk) (body : List Nibble) :
    encode (mk body) = lineOf c0 body := by
  rcases leadingByte_cases h with
    ⟨rfl, rfl⟩ | ⟨rfl, rfl⟩ | ⟨rfl, rfl⟩ | ⟨rfl, rfl⟩ | ⟨rfl, rfl⟩ | ⟨rfl, rfl⟩ | ⟨rfl, rfl⟩ | ⟨rfl, rfl⟩ |
    ⟨rfl, rfl⟩ | ⟨rfl, rfl⟩ | ⟨rfl, rfl⟩ | ⟨rfl, rfl⟩ | ⟨rfl, rfl⟩ <;> rfl

/-- An accepted line: its leading byte selects the row, and Phase 2 gives the row's body. -/
theorem decodeLine_ok {bytes : List Byte} {i : Instr} (h : decodeLine bytes = .ok i) :
    ∃ c0 rest mk body, bytes = c0 :: rest ∧ leadingByte c0 = some mk ∧ hexBody rest = .ok body ∧ i = mk body := by
  rcases decodeLine_cases bytes with
    ⟨_, e⟩ | ⟨_, _, _, _, e⟩ | ⟨_, _, _, _, _, _, e⟩ | ⟨c0, rest, mk, body, hbytes, hm, hb, e⟩ <;> rw [e] at h <;> cases h
  exact ⟨c0, rest, mk, body, hbytes, hm, hb, rfl⟩

theorem encode_decodeLine {bytes : List Byte} {i : Instr} (h : decodeLine bytes = .ok i) :
    encode i = .line (upperLine bytes) := by
  obtain ⟨c0, rest, mk, body, rfl, hm, hb, rfl⟩ := decodeLine_ok h
  rw [encode_leading hm, lineOf, map_nib2hex_hexBody hb]
  rfl

/-- Settles O7, kind by kind of image. -/
theorem encodeOfDecodeIsUppercase : Obligations.EncodeOfDecodeIsUppercase := by
  intro m i h
  cases m with
  | nibble v => cases h; exact encode_decodeNibble v
  | char c => exact decodeChar_ok h
  | frame F => cases h; exact encode_decodeFrame F
  | line bytes => exact encode_decodeLine h

/-! ## What the common part of DECODE rejects -/

/-- Phase 1 rejects what is none of the thirteen leading bytes (R58, R60). -/
theorem leadingByte_none_iff_notMem (c : Byte) : leadingByte c = none ↔ c ∉ leadingBytes := by
  rw [leadingByte_none_iff]
  simp only [leadingBytes, List.cons_append, List.nil_append, List.mem_cons, List.not_mem_nil, or_false, not_or]
  constructor
  · rintro ⟨hO, hC, hS, hM, hm, hA, ha, hV, hE, ht, hT, hr, hR⟩
    exact ⟨hO, hC, hS, hM, hm, hA, ha, hV, hE, hT, ht, hR, hr⟩
  · rintro ⟨hO, hC, hS, hM, hm, hA, ha, hV, hE, hT, ht, hR, hr⟩
    exact ⟨hO, hC, hS, hM, hm, hA, ha, hV, hE, ht, hT, hr, hR⟩

/-- HEX2NIB fails exactly on a byte that is no hex digit (R67). -/
theorem hex2nib_invalid_iff (c : Byte) : hex2nib c = .err .invalidCharacter ↔ ¬ HexDigit c := by
  rw [hex2nib_err_iff]
  exact and_iff_right rfl

theorem decodeLine_cons_unknown_iff (c0 : Byte) (rest : List Byte) :
    decodeLine (c0 :: rest) = .err .unknownCommand ↔ c0 ∉ leadingBytes := by
  rw [← leadingByte_none_iff_notMem]
  cases hm : leadingByte c0 with
  | none => simp [decodeLine, hm]
  | some mk =>
    cases hb : hexBody rest with
    | ok body => simp [decodeLine, hm, hb]
    | err k =>
      obtain ⟨rfl, -⟩ := (hexBody_err_iff rest k).1 hb
      simp [decodeLine, hm, hb]

theorem decodeLine_cons_invalid_iff (c0 : Byte) (rest : List Byte) :
    decodeLine (c0 :: rest) = .err .invalidCharacter ↔ c0 ∈ leadingBytes ∧ ∃ c ∈ rest, ¬ HexDigit c := by
  have hphase2 : hexBody rest = .err .invalidCharacter ↔ ∃ c ∈ rest, ¬ HexDigit c := by
    simp only [hexBody_err_iff, hex2nib_invalid_iff, true_and]
  rw [← hphase2, ← not_not (a := c0 ∈ leadingBytes), ← leadingByte_none_iff_notMem]
  cases hm : leadingByte c0 with
  | none => simp [decodeLine, hm]
  | some mk => cases hb : hexBody rest <;> simp [decodeLine, hm, hb]

/-! ## What the commands themselves reject -/

@[simp] theorem bitrateCommand_nil (bound : Nat) : bitrateCommand bound [] = .err .truncatedInput := rfl

@[simp] theorem bitrateCommand_cons (bound : Nat) (n : Nibble) (surplus : List Nibble) :
    bitrateCommand bound (n :: surplus) = if bound ≤ n.toNat then .err .invalidBitrate else .ok (.setBitrate n) := rfl

@[simp] theorem flagCommand_nil (mk : Bool → Command) : flagCommand mk [] = .err .truncatedInput := rfl

@[simp] theorem flagCommand_cons (mk : Bool → Command) (n : Nibble) (surplus : List Nibble) :
    flagCommand mk (n :: surplus) = .ok (mk (flagOf n)) := rfl

theorem bitrateCommand_err {bound : Nat} {body : List Nibble} {k : ErrorKind} (h : bitrateCommand bound body = .err k) :
    k = .invalidBitrate ∨ k = .truncatedInput := by
  cases body with
  | nil => cases h; exact .inr rfl
  | cons n surplus =>
    rw [bitrateCommand_cons] at h
    split at h <;> cases h
    exact .inl rfl

theorem flagCommand_err {mk : Bool → Command} {body : List Nibble} {k : ErrorKind} (h : flagCommand mk body = .err k) :
    k = .truncatedInput := by
  cases body with
  | nil => cases h; rfl
  | cons n surplus => cases h

theorem transmit_err {kind : FrameKind} {idk : IdKind} {body : List Nibble} {k : ErrorKind}
    (h : transmit kind idk body = .err k) : k = .invalidDlc ∨ k = .truncatedInput ∨ k = .identifierOutOfRange := by
  rcases transmit_cases kind idk body with ⟨e, _⟩ | ⟨e, _⟩ | ⟨e, _⟩ | ⟨e, _⟩ | ⟨e, _⟩ | ⟨e, _⟩ <;>
    rw [e] at h <;> cases h <;> simp

/-- The kinds that the common part of DECODE raises are raised by no recognised command (R60, R61). -/
theorem commandOf_leading_err {c0 : Byte} {mk : List Nibble → Instr} (hm : leadingByte c0 = some mk) {bound : Nat}
    {body : List Nibble} {k : ErrorKind} (h : commandOf bound (mk body) = .err k) :
    k ≠ .unknownCommand ∧ k ≠ .invalidCharacter := by
  have flag : ∀ {mk : Bool → Command}, flagCommand mk body = .err k → k ≠ .unknownCommand ∧ k ≠ .invalidCharacter := by
    intro mk h
    obtain rfl := flagCommand_err h
    decide
  have tx : ∀ {kind idk}, transmit kind idk body = .err k → k ≠ .unknownCommand ∧ k ≠ .invalidCharacter := by
    intro kind idk h
    obtain rfl | rfl | rfl := transmit_err h <;> decide
  rcases leadingByte_cases hm with
    ⟨_, rfl⟩ | ⟨_, rfl⟩ | ⟨_, rfl⟩ | ⟨_, rfl⟩ | ⟨_, rfl⟩ | ⟨_, rfl⟩ | ⟨_, rfl⟩ | ⟨_, rfl⟩ | ⟨_, rfl⟩ | ⟨_, rfl⟩ |
    ⟨_, rfl⟩ | ⟨_, rfl⟩ | ⟨_, rfl⟩
  · cases h
  · cases h
  · obtain rfl | rfl := bitrateCommand_err h <;> decide
  · exact flag h
  · exact flag h
  · exact flag h
  · exact flag h
  · cases h
  · cases h
  · exact tx h
  · exact tx h
  · exact tx h
  · exact tx h

/-- The whole of DECODE raises a kind of its common part exactly where the common part does (R139). -/
theorem decodeCommand_common_err_iff {bound : Nat} {bytes : List Byte} {k : ErrorKind}
    (hk : k = .unknownCommand ∨ k = .invalidCharacter) :
    decodeCommand bound bytes = .err k ↔ decodeLine bytes = .err k := by
  unfold decodeCommand
  cases hd : decodeLine bytes with
  | err e => simp
  | ok i =>
    obtain ⟨c0, rest, mk, body, rfl, hm, hb, rfl⟩ := decodeLine_ok hd
    refine ⟨fun h => ?_, nofun⟩
    obtain ⟨hunknown, hinvalid⟩ := commandOf_leading_err hm h
    exact absurd hk (not_or.2 ⟨hunknown, hinvalid⟩)

/-! ## UnknownCommand and InvalidCharacter by call -/

@[simp] theorem commandResult_eq_err_iff (r : Result Command) (k : ErrorKind) : commandResult r = .err k ↔ r = .err k := by
  cases r <;> simp [commandResult]

@[simp] theorem commandResult_eq_ok_iff (r : Result Command) : (∃ v, commandResult r = .ok v) ↔ ∃ c, r = .ok c := by
  cases r <;> simp [commandResult]

/-- The kinds of the common part, in a DECODE call that keeps the contract. -/
theorem freshDecode_common_err_iff {s : State} {b : Buffer} {n : Nat} {rest : List Call} (h : FreshDecode s b n rest)
    {k : ErrorKind} (hk : k = .unknownCommand ∨ k = .invalidCharacter) :
    ∃ t, step s = .next t ∧ (t.result = some (.err k) ↔ decodeLine (Memory.readBytes b.bytes 0 n) = .err k) := by
  refine ⟨_, step_freshDecode h, ?_⟩
  simp only [Option.some.injEq, commandResult_eq_err_iff]
  exact decodeCommand_common_err_iff hk

/-- What is read stands at one of the addresses read. -/
theorem Memory.mem_readBytes {m : Memory} {i n : Nat} {c : Byte} :
    c ∈ Memory.readBytes m i n ↔ ∃ a, i ≤ a ∧ a < i + n ∧ Memory.read m a = c := by
  rw [List.mem_iff_getElem]
  simp only [Memory.readBytes_getElem, Memory.readBytes_length, exists_prop]
  constructor
  · rintro ⟨k, hk, hc⟩
    exact ⟨i + k, by omega, by omega, hc⟩
  · rintro ⟨a, hlo, hhi, hc⟩
    exact ⟨a - i, by omega, by rwa [show i + (a - i) = a by omega]⟩

theorem decodeLine_readBytes_unknown_iff (m : Memory) (n : Nat) :
    decodeLine (Memory.readBytes m 0 n) = .err .unknownCommand ↔ 1 ≤ n ∧ Memory.read m 0 ∉ leadingBytes := by
  cases n with
  | zero => simp [Memory.readBytes, decodeLine]
  | succ n =>
    rw [Memory.readBytes, decodeLine_cons_unknown_iff]
    exact (and_iff_right (by omega)).symm

theorem decodeLine_readBytes_invalid_iff (m : Memory) (n : Nat) :
    decodeLine (Memory.readBytes m 0 n) = .err .invalidCharacter ↔
      1 ≤ n ∧ Memory.read m 0 ∈ leadingBytes ∧ ∃ k, 1 ≤ k ∧ k < n ∧ ¬ HexDigit (Memory.read m k) := by
  cases n with
  | zero => simp [Memory.readBytes, decodeLine]
  | succ n =>
    have hbody : (∃ c ∈ Memory.readBytes m 1 n, ¬ HexDigit c) ↔
        ∃ k, 1 ≤ k ∧ k < n + 1 ∧ ¬ HexDigit (Memory.read m k) := by
      constructor
      · rintro ⟨c, hmem, hc⟩
        obtain ⟨k, hlo, hhi, rfl⟩ := Memory.mem_readBytes.1 hmem
        exact ⟨k, hlo, by omega, hc⟩
      · rintro ⟨k, hlo, hhi, hc⟩
        exact ⟨_, Memory.mem_readBytes.2 ⟨k, hlo, by omega, rfl⟩, hc⟩
    rw [Memory.readBytes, decodeLine_cons_invalid_iff, hbody]
    exact (and_iff_right (by omega)).symm

/-- The two kinds of ENCODE (R138). -/
theorem encodeFrame_err {F : CanFrame} {s t : State} {k : ErrorKind} (h : s.encodeFrame F = .next t)
    (hk : t.result = some (.err k)) : k = .invalidDlc ∨ k = .identifierOutOfRange := by
  rcases encodeFrame_cases F s with ⟨e, _⟩ | ⟨e, _⟩ | ⟨_, _, _, e⟩ | ⟨_, _, _, _, e⟩ | ⟨_, _, _, _, e⟩ <;>
    rw [e] at h <;> cases h <;> cases hk
  · exact .inr rfl
  · exact .inl rfl

/-- NIB2HEX never fails (R64). -/
theorem step_nib2hex_ne_err {s t : State} {v : Nibble} {rest : List Call} (hcall : s.calls = .nib2hex v :: rest)
    (h : step s = .next t) (k : ErrorKind) : t.result ≠ some (.err k) := by
  rw [step_nib2hex hcall, callNib2hex_eq] at h
  cases h
  nofun

/-- HEX2NIB fails with the kind that its conversion names. -/
theorem step_hex2nib_err_iff {s : State} {c : Byte} {rest : List Call} (hcall : s.calls = .hex2nib c :: rest)
    (k : ErrorKind) : ∃ t, step s = .next t ∧ (t.result = some (.err k) ↔ hex2nib c = .err k) := by
  rw [step_hex2nib hcall, callHex2nib_eq]
  refine ⟨_, rfl, ?_⟩
  cases hex2nib c <;> simp

/-- Settles O10: DECODE by its common part, the other operations by the kinds they can raise. -/
theorem unknownCommandExactly : Obligations.UnknownCommandExactly := by
  refine ⟨fun s b n rest h => ?_, fun s t c rest hcall hc ht hk => ?_⟩
  · obtain ⟨t, ht, hiff⟩ := freshDecode_common_err_iff h (.inl rfl)
    exact ⟨t, ht, hiff.trans (decodeLine_readBytes_unknown_iff b.bytes n)⟩
  · cases c with
    | nib2hex v => exact step_nib2hex_ne_err hcall ht _ hk
    | hex2nib byte =>
      obtain ⟨u, hu, hiff⟩ := step_hex2nib_err_iff hcall .unknownCommand
      rw [ht] at hu
      cases hu
      exact absurd ((hex2nib_err_iff byte _).1 (hiff.1 hk)).1 (by decide)
    | encode F b => exact absurd (encodeFrame_err (step_encode hcall ▸ ht) hk) (by decide)
    | decode b n => exact hc b n rfl

/-- Settles O11, operation by operation. -/
theorem invalidCharacterExactly : Obligations.InvalidCharacterExactly := by
  refine ⟨fun s b n rest h => ?_, fun s c rest hcall => ?_, fun s t F b rest hcall ht hk => ?_,
    fun s t v rest hcall ht => step_nib2hex_ne_err hcall ht _⟩
  · obtain ⟨t, ht, hiff⟩ := freshDecode_common_err_iff h (.inr rfl)
    exact ⟨t, ht, hiff.trans (decodeLine_readBytes_invalid_iff b.bytes n)⟩
  · obtain ⟨t, ht, hiff⟩ := step_hex2nib_err_iff hcall .invalidCharacter
    exact ⟨t, ht, hiff.trans (hex2nib_invalid_iff c)⟩
  · exact absurd (encodeFrame_err (step_encode hcall ▸ ht) hk) (by decide)

/-! ## The grammar is what succeeds -/

/-- TRANSMIT succeeds on the bodies of the grammar (R63, R109). -/
theorem transmit_ok_iff (kind : FrameKind) (idk : IdKind) (body : List Nibble) :
    (∃ c, transmit kind idk body = .ok c) ↔ transmitBodyOk idk body = true := by
  simp only [transmitBodyOk, hasIdentifier, identifierFits, hasDlc, dlcFits, hasData, dlcMax, Bool.and_eq_true,
    decide_eq_true_iff]
  rcases transmit_cases kind idk body with ⟨e, _⟩ | ⟨e, _⟩ | ⟨e, _⟩ | ⟨e, _⟩ | ⟨e, _⟩ | ⟨e, _⟩ <;>
    simp only [e, reduceCtorEq, exists_false, false_iff, Result.ok.injEq, exists_eq', true_iff] <;>
    omega

theorem flagCommand_ok_iff (mk : Bool → Command) (body : List Nibble) :
    (∃ c, flagCommand mk body = .ok c) ↔ hasOperand body = true := by
  cases body <;> simp [hasOperand]

/-- `S` succeeds when its operand is there and below the bound (R102). -/
theorem bitrateCommand_ok_iff (bound : Nat) (body : List Nibble) :
    (∃ c, bitrateCommand bound body = .ok c) ↔
      hasOperand body = true ∧ ∀ n surplus, body = n :: surplus → n.toNat < bound := by
  cases body with
  | nil => simp [hasOperand]
  | cons n surplus =>
    by_cases hn : bound ≤ n.toNat
    · simp [hasOperand, hn]
    · simp [hasOperand, hn, Nat.not_le.1 hn]

/-- A line's Command is delivered when the line is well-formed and, for `S`, its index below the bound (R63, R102). -/
theorem commandOf_leading_ok_iff {c0 : Byte} {mk : List Nibble → Instr} (hm : leadingByte c0 = some mk) (bound : Nat)
    (body : List Nibble) :
    (∃ c, commandOf bound (mk body) = .ok c) ↔ (mk body).wellFormed = true ∧
      ∀ n surplus, mk body = .setBitrateS (n :: surplus) → n.toNat < bound := by
  rcases leadingByte_cases hm with
    ⟨_, rfl⟩ | ⟨_, rfl⟩ | ⟨_, rfl⟩ | ⟨_, rfl⟩ | ⟨_, rfl⟩ | ⟨_, rfl⟩ | ⟨_, rfl⟩ | ⟨_, rfl⟩ | ⟨_, rfl⟩ | ⟨_, rfl⟩ |
    ⟨_, rfl⟩ | ⟨_, rfl⟩ | ⟨_, rfl⟩ <;>
    simp [commandOf, Instr.wellFormed, bitrateCommand_ok_iff, flagCommand_ok_iff, transmit_ok_iff]

/-- ENCODE delivers a length exactly for a well-formed frame (R17, R80). -/
theorem encodeFrame_ok_iff {F : CanFrame} {s t : State} (h : s.encodeFrame F = .next t) :
    (∃ v, t.result = some (.ok v)) ↔ frameWellFormed F = true := by
  rw [frameWellFormed_iff]
  rcases encodeFrame_cases F s with
    ⟨e, _⟩ | ⟨e, _⟩ | ⟨_, _, hid, e⟩ | ⟨_, _, hid, hdlc, e⟩ | ⟨_, _, hid, hdlc, e⟩ <;> rw [e] at h <;> cases h
  · simp [Nat.not_le.2 hid]
  · simp [Nat.not_le.2 hdlc]
  · simp [hid, hdlc]

/-- HEX2NIB accepts the byte of each of its rows (R66). -/
theorem hex2nib_of_decodeChar {c : Byte} {i : Instr} (h : decodeChar c = .ok i) : ∃ v, hex2nib c = .ok v := by
  cases hx : hex2nib c with
  | ok v => exact ⟨v, rfl⟩
  | err k =>
    obtain ⟨-, hrange⟩ := (hex2nib_err_iff c k).1 hx
    unfold decodeChar at h
    split at h <;> cases h <;> omega

theorem wellFormed_decodeChar {c : Byte} {i : Instr} (h : decodeChar c = .ok i) : i.wellFormed = true := by
  unfold decodeChar at h
  split at h <;> cases h <;> rfl

theorem wellFormed_decodeNibble (v : Nibble) : (decodeNibble v).wellFormed = true := by
  revert v; exact nibble_forall (by decide)

theorem wellFormed_decodeFrame (F : CanFrame) : (decodeFrame F).wellFormed = frameWellFormed F := by
  obtain ⟨kind, idk, id, dlc, data⟩ := F
  cases kind <;> cases idk <;> rfl

/-- The bound of `S` says nothing of an instruction that is no line. -/
theorem bitrateBound_of_encode_ne_line {i : Instr} (h : ∀ bytes, encode i ≠ .line bytes) (bound : Nat) (n : Nibble)
    (surplus : List Nibble) (hi : i = .setBitrateS (n :: surplus)) : n.toNat < bound := by
  subst hi
  exact absurd rfl (h _)

/-- Settles O22: an instruction is what its own image decodes to (O6), so its operation is known from the kind of the
image. -/
theorem grammarIsWhatSucceeds : Obligations.GrammarIsWhatSucceeds := by
  intro i s t ht
  have hd := decodeOfEncodeIsIdentity i
  cases hm : encode i with
  | nibble v =>
    rw [hm] at hd
    cases hd
    rw [exec_decodeNibble, callNib2hex_eq] at ht
    cases ht
    exact iff_of_true ⟨_, rfl⟩ ⟨wellFormed_decodeNibble v, bitrateBound_of_encode_ne_line (by simp [hm]) _⟩
  | char c =>
    rw [hm] at hd
    obtain ⟨v, hv⟩ := hex2nib_of_decodeChar hd
    rw [exec_decodeChar hd, callHex2nib_eq, hv] at ht
    cases ht
    exact iff_of_true ⟨_, rfl⟩ ⟨wellFormed_decodeChar hd, bitrateBound_of_encode_ne_line (by simp [hm]) _⟩
  | frame F =>
    rw [hm] at hd
    cases hd
    rw [exec_decodeFrame] at ht
    rw [encodeFrame_ok_iff ht, wellFormed_decodeFrame]
    exact (and_iff_left (bitrateBound_of_encode_ne_line (by simp [hm]) _)).symm
  | line bytes =>
    rw [hm] at hd
    obtain ⟨c0, rest, mk, body, -, hlead, -, rfl⟩ := decodeLine_ok hd
    rw [exec_leading hlead, finish_eq] at ht
    cases ht
    simp only [Option.some.injEq, commandResult_eq_ok_iff]
    exact commandOf_leading_ok_iff hlead _ body

end Sys2Proof.Machine
end

section
/-! SUPPORT. Proofs of the statements about the hex/nibble codec (40_hex_nibble_codec.md): the rows of NIB2HEX and HEX2NIB,
their calls, and that the two conversions are inverse up to letter case. -/

namespace Sys2Proof.Machine

open Sys2Proof.Spec

/-! ## What HEX2NIB gives in each range (R66) -/

theorem hex2nib_decimal {c : Byte} (h : 0x30 ≤ c.toNat ∧ c.toNat ≤ 0x39) :
    hex2nib c = .ok (BitVec.ofNat 4 (c.toNat - 0x30)) :=
  if_pos h

theorem hex2nib_upperLetter {c : Byte} (h : 0x41 ≤ c.toNat ∧ c.toNat ≤ 0x46) :
    hex2nib c = .ok (BitVec.ofNat 4 (c.toNat - 0x41 + 10)) := by
  rw [hex2nib, if_neg (by omega), if_pos h]

theorem hex2nib_lowerLetter {c : Byte} (h : 0x61 ≤ c.toNat ∧ c.toNat ≤ 0x66) :
    hex2nib c = .ok (BitVec.ofNat 4 (c.toNat - 0x61 + 10)) := by
  rw [hex2nib, if_neg (by omega), if_neg (by omega), if_pos h]

theorem lowerLetter_sub_toNat {c : Byte} (h : 0x61 ≤ c.toNat) : (c - 0x20).toNat = c.toNat - 0x20 :=
  BitVec.toNat_sub_of_le (BitVec.le_def.2 (Nat.le_trans (by decide) h))

/-- A lowercase letter spells what its uppercase letter spells (R68). -/
theorem hex2nib_sub_of_lowerLetter {c : Byte} (h : 0x61 ≤ c.toNat ∧ c.toNat ≤ 0x66) :
    hex2nib (c - 0x20) = hex2nib c := by
  have hsub := lowerLetter_sub_toNat h.1
  rw [hex2nib_lowerLetter h, hex2nib_upperLetter (by omega), hsub, Nat.sub_sub]

/-- Among digits and uppercase letters the nibble determines the byte (R68). -/
theorem eq_nib2hex_of_hex2nib {c : Byte} {v : Nibble} (h : hex2nib c = .ok v) (hc : c.toNat < 0x61) : c = nib2hex v := by
  rw [nib2hex_of_hex2nib h, if_neg (by omega)]

/-! ## The rows -/

theorem exec_of_encode_char {i : Instr} {c : Byte} (h : encode i = .char c) (s : State) : exec i s = s.callHex2nib c := by
  have hexec := exec_encode i s
  rwa [h] at hexec

theorem exec_of_encode_nibble {i : Instr} {v : Nibble} (h : encode i = .nibble v) (s : State) :
    exec i s = s.callNib2hex v := by
  have hexec := exec_encode i s
  rwa [h] at hexec

/-- A row of HEX2NIB is a character that spells the row's nibble (R66). -/
theorem hexRows_spec {p : Instr × Nibble} (hp : p ∈ hexRows) : ∃ c, encode p.1 = .char c ∧ hex2nib c = .ok p.2 := by
  unfold hexRows at hp
  fin_cases hp <;> exact ⟨_, rfl, rfl⟩

/-- A row of NIB2HEX is a nibble whose digit is the row's byte (R64). -/
theorem nibRows_spec {p : Instr × Byte} (hp : p ∈ nibRows) : ∃ v, encode p.1 = .nibble v ∧ nib2hex v = p.2 := by
  unfold nibRows at hp
  fin_cases hp <;> exact ⟨_, rfl, rfl⟩

/-- Settles O1: each row runs NIB2HEX on its own nibble. -/
theorem nib2HexRowsReturnTheirByte : Obligations.Nib2HexRowsReturnTheirByte := by
  intro s p hp
  obtain ⟨v, himage, hbyte⟩ := nibRows_spec hp
  rw [exec_of_encode_nibble himage, callNib2hex_eq, hbyte, okState]

/-- Settles O3: each row runs HEX2NIB on its own character. -/
theorem hex2NibRowsReturnTheirNibble : Obligations.Hex2NibRowsReturnTheirNibble := by
  intro s p hp
  obtain ⟨c, himage, hnibble⟩ := hexRows_spec hp
  rw [exec_of_encode_char himage, callHex2nib_eq, hnibble, okState]

/-! ## The calls -/

/-- NIB2HEX writes the digit of R64's formula. -/
theorem nib2hex_eq_digit (v : Nibble) : nib2hex v = digit v.toNat := rfl

/-- Settles O2: only the result, the digit, is written after the call has left the session. -/
theorem nib2HexCallReturnsDigit : Obligations.Nib2HexCallReturnsDigit := by
  intro s v rest hcall
  rw [step_nib2hex hcall, callNib2hex_eq, nib2hex_eq_digit]
  exact ⟨_, rfl, rfl, rfl, rfl, rfl, rfl, rfl⟩

/-- Settles O4, range by range of the byte. -/
theorem hex2NibCallIsTotal : Obligations.Hex2NibCallIsTotal := by
  intro s c rest hcall
  rw [step_hex2nib hcall, callHex2nib_eq]
  refine ⟨_, rfl, fun h => ?_, fun h => ?_, fun h => ?_, fun h => ?_, rfl, rfl, rfl, rfl, rfl⟩
  · rw [hex2nib_decimal h]
  · rw [hex2nib_upperLetter h]
  · rw [hex2nib_lowerLetter h]
  · rw [(hex2nib_invalid_iff c).2 h]

/-! ## The two conversions -/

/-- Settles O5: injectivity holds because both bytes are the digit of the one nibble. -/
theorem nibbleConversionsAreInverse : Obligations.NibbleConversionsAreInverse :=
  ⟨hex2nib_nib2hex, fun _ _ h => nib2hex_of_hex2nib h,
    fun _ _ _ hc hd hc' hd' => (eq_nib2hex_of_hex2nib hc hc').trans (eq_nib2hex_of_hex2nib hd hd').symm,
    fun _ hlow hhigh => (hex2nib_sub_of_lowerLetter ⟨hlow, hhigh⟩).symm⟩

end Sys2Proof.Machine
end

section
/-! SUPPORT. Proofs of the statements about the frame encoder (41_frame_encoder.md): ill-formed frames, the carrier beyond
`dlc`, and the alphabet of what is written. -/

namespace Sys2Proof.Machine

open Sys2Proof.Spec

/-! ## Ill-formed frames -/

/-- The identifier is validated first, whatever the DLC (R71, R73). -/
theorem frameError_identifier {F : CanFrame} (hid : idMax F.idKind < F.id.toNat) :
    frameError F = some .identifierOutOfRange := by
  simp [frameError, idInRange, Nat.not_le.2 hid]

/-- Behind an identifier in range the DLC is validated (R72, R73). -/
theorem frameError_dlc {F : CanFrame} (hid : F.id.toNat ≤ idMax F.idKind) (hdlc : 8 < F.dlc.toNat) :
    frameError F = some .invalidDlc := by
  simp [frameError, idInRange, dlcInRange, hid, Nat.not_le.2 hdlc]

/-- Settles O24: what the two validations answer is all that ENCODE does with an ill-formed frame. -/
theorem encodeRejectsIllFormedFrames : Obligations.EncodeRejectsIllFormedFrames := by
  intro f hf id dlc data s hx hroom
  obtain ⟨hexec, -, -, hmax⟩ := encodeForms_spec hf
  rw [hexec, hmax]
  exact ⟨fun hid => encodeFrame_of_error hx hroom (frameError_identifier hid),
    fun hid hdlc => encodeFrame_of_error hx hroom (frameError_dlc hid hdlc)⟩

/-! ## The carrier beyond `dlc` -/

/-- ENCODE reads the carrier through the message alone: neither validation looks at the data (R73). -/
theorem encodeFrame_data_congr {F : CanFrame} {e : DataField} (h : message F = message { F with data := e })
    (s : State) : s.encodeFrame F = s.encodeFrame { F with data := e } := by
  have hemit : s.emitFrame F = s.emitFrame { F with data := e } := by simp only [State.emitFrame, h]
  have herror : frameError { F with data := e } = frameError F := rfl
  simp only [State.encodeFrame, hemit, herror]

/-- Settles O25: carriers that agree below `dlc` have one payload, so one message. -/
theorem encodeIgnoresBytesBeyondDlc : Obligations.EncodeIgnoresBytesBeyondDlc := by
  intro f hf id dlc d e s h
  obtain ⟨hexec, -⟩ := encodeForms_spec hf
  have hpayload : payload (formFrame f id dlc d) = payload (formFrame f id dlc e) := payload_congr rfl h
  rw [hexec, hexec]
  refine encodeFrame_data_congr ?_ s
  simp only [message, frameDigits, hpayload]

/-! ## The alphabet -/

/-- The type characters are the four of R59. -/
theorem typeChar_mem (k : FrameKind) (i : IdKind) : typeChar k i ∈ [(0x74 : Byte), 0x54, 0x72, 0x52] := by
  cases k <;> cases i <;> decide

/-- A nibble is written as a decimal digit or an uppercase letter (R64). -/
theorem digit_range (d : Nibble) : (0x30 ≤ (digit d.toNat).toNat ∧ (digit d.toNat).toNat ≤ 0x39) ∨
    (0x41 ≤ (digit d.toNat).toNat ∧ (digit d.toNat).toNat ≤ 0x46) := by
  revert d; exact nibble_forall (by decide)

/-- A call that returns a length has emitted a frame of at most eight data bytes, and the length is R79's. -/
theorem encodeFrame_length_cases {F : CanFrame} {s t : State} {n : Nat} (h : s.encodeFrame F = .next t)
    (hn : t.result = some (.ok (.length n))) : t = s.emitFrame F ∧ F.dlc.toNat ≤ 8 ∧ n = messageLength F := by
  rcases encodeFrame_cases F s with ⟨e, _⟩ | ⟨e, _⟩ | ⟨_, _, _, e⟩ | ⟨_, _, _, _, e⟩ | ⟨_, _, _, hdlc, e⟩ <;>
    rw [e] at h <;> cases h <;> cases hn
  exact ⟨rfl, hdlc, message_length hdlc⟩

/-- Settles O27: the OUT of `emitFrame`, read at its first place, at its last and at the digits between. -/
theorem encodedBytesStayInTheAlphabet : Obligations.EncodedBytesStayInTheAlphabet := by
  intro f hf id dlc data s t n ht hn
  obtain ⟨hexec, -⟩ := encodeForms_spec hf
  rw [hexec] at ht
  obtain ⟨rfl, hdlc, hlen⟩ := encodeFrame_length_cases ht hn
  have hdigits := frameDigits_length hdlc
  have hwidth := idWidth_pos f.idKind
  simp only [messageLength] at hlen hdigits hdlc
  refine ⟨by omega, by omega, ?_, ?_, fun k hk1 hkn => ?_⟩
  · rw [State.emitFrame_out, read_written_message _ (message_getElem?_zero _)]
    exact typeChar_mem f.kind f.idKind
  · exact read_written_last _ (by omega)
  · have hd := List.getElem?_eq_getElem (show k - 1 < (frameDigits (formFrame f id dlc data)).length by omega)
    rw [State.emitFrame_out, read_written_digit _ hd (by omega)]
    exact digit_range _

end Sys2Proof.Machine
end

section
/-! SUPPORT. Proofs of the statements about the decoder's dispatch (42_decoder_dispatch.md): surplus bytes, what the
result of DECODE depends on, and the one result of every call. -/

namespace Sys2Proof.Machine

open Sys2Proof.Spec

/-! ## The thirteen rows -/

/-- The leading byte of each row, in the order of `lineForms` (R58). -/
theorem lineForms_map_some : lineForms.map some =
    [charO, charC, charS, charUpperM, charLowerM, charUpperA, charLowerA, charV, charE, charLowerT, charUpperT,
      charLowerR, charUpperR].map leadingByte := rfl

theorem leadingByte_of_mem_lineForms {mk : List Nibble → Instr} (h : mk ∈ lineForms) :
    ∃ c0, leadingByte c0 = some mk := by
  have hsome : some mk ∈ lineForms.map some := List.mem_map_of_mem h
  rw [lineForms_map_some] at hsome
  obtain ⟨c0, -, hc0⟩ := List.mem_map.1 hsome
  exact ⟨c0, hc0⟩

theorem mem_lineForms_of_leadingByte {c0 : Byte} {mk : List Nibble → Instr} (h : leadingByte c0 = some mk) :
    mk ∈ lineForms := by
  rcases leadingByte_cases h with
    ⟨_, rfl⟩ | ⟨_, rfl⟩ | ⟨_, rfl⟩ | ⟨_, rfl⟩ | ⟨_, rfl⟩ | ⟨_, rfl⟩ | ⟨_, rfl⟩ | ⟨_, rfl⟩ | ⟨_, rfl⟩ | ⟨_, rfl⟩ |
    ⟨_, rfl⟩ | ⟨_, rfl⟩ | ⟨_, rfl⟩ <;> simp [lineForms]

theorem mem_leadingBytes_of_leadingByte {c0 : Byte} {mk : List Nibble → Instr} (h : leadingByte c0 = some mk) :
    c0 ∈ leadingBytes := by
  by_contra hnot
  rw [(leadingByte_none_iff_notMem c0).2 hnot] at h
  cases h

/-! ## Surplus nibbles are ignored -/

theorem bitrateCommand_append (bound : Nat) {body : List Nibble} (surplus : List Nibble) (h : hasOperand body = true) :
    bitrateCommand bound (body ++ surplus) = bitrateCommand bound body := by
  cases body with
  | nil => cases h
  | cons n rest => rfl

theorem flagCommand_append (mk : Bool → Command) {body : List Nibble} (surplus : List Nibble)
    (h : hasOperand body = true) : flagCommand mk (body ++ surplus) = flagCommand mk body := by
  cases body with
  | nil => cases h
  | cons n rest => rfl

/-- A transmit body of the grammar: identifier and DLC in range, and the last data digit there (R63). -/
theorem transmitBodyOk_iff (idk : IdKind) (body : List Nibble) : transmitBodyOk idk body = true ↔
    assembleId (body.take (idWidth idk)) ≤ idMax idk ∧ (bodyAt body (idWidth idk)).toNat ≤ 8 ∧
      idWidth idk + 1 + 2 * (bodyAt body (idWidth idk)).toNat ≤ body.length := by
  simp only [transmitBodyOk, hasIdentifier, identifierFits, hasDlc, dlcFits, hasData, dlcMax, Bool.and_eq_true,
    decide_eq_true_iff]
  omega

/-- TRANSMIT delivers the frame that a body of the grammar spells (R109 step 4). -/
theorem transmit_of_bodyOk (kind : FrameKind) {idk : IdKind} {body : List Nibble} (h : transmitBodyOk idk body = true) :
    transmit kind idk body = .ok (.transmit (bodyFrame kind idk body)) := by
  obtain ⟨c, hc⟩ := (transmit_ok_iff kind idk body).2 h
  rcases transmit_cases kind idk body with ⟨e, _⟩ | ⟨e, _⟩ | ⟨e, _⟩ | ⟨e, _⟩ | ⟨e, _⟩ | ⟨e, _⟩ <;>
    rw [e] at hc <;> cases hc
  exact e

theorem bodyAt_append {body : List Nibble} (surplus : List Nibble) {k : Nat} (h : k < body.length) :
    bodyAt (body ++ surplus) k = bodyAt body k :=
  List.getD_append body surplus 0 k h

/-- The data digits stand before the surplus (R115). -/
theorem bodyData_append {w : Nat} {body : List Nibble} (surplus : List Nibble)
    (h : w + 1 + 2 * (bodyAt body w).toNat ≤ body.length) : bodyData w (body ++ surplus) = bodyData w body := by
  rw [bodyData, bodyAt_append surplus (by omega), List.drop_append_of_le_length (by omega),
    List.take_append_of_le_length (by rw [List.length_drop]; omega), bodyData]

theorem transmitBodyOk_append {idk : IdKind} {body : List Nibble} (surplus : List Nibble)
    (h : transmitBodyOk idk body = true) : transmitBodyOk idk (body ++ surplus) = true := by
  obtain ⟨hid, hdlc, hlen⟩ := (transmitBodyOk_iff idk body).1 h
  rw [transmitBodyOk_iff, List.take_append_of_le_length (by omega), bodyAt_append surplus (by omega),
    List.length_append]
  exact ⟨hid, hdlc, by omega⟩

/-- A body of the grammar spells the same frame whatever follows it. -/
theorem bodyFrame_append (kind : FrameKind) {idk : IdKind} {body : List Nibble} (surplus : List Nibble)
    (h : transmitBodyOk idk body = true) : bodyFrame kind idk (body ++ surplus) = bodyFrame kind idk body := by
  obtain ⟨-, -, hlen⟩ := (transmitBodyOk_iff idk body).1 h
  simp only [bodyFrame, bodyData_append surplus hlen, bodyAt_append surplus (show idWidth idk < body.length by omega),
    List.take_append_of_le_length (show idWidth idk ≤ body.length by omega)]

theorem transmit_append (kind : FrameKind) {idk : IdKind} {body : List Nibble} (surplus : List Nibble)
    (h : transmitBodyOk idk body = true) : transmit kind idk (body ++ surplus) = transmit kind idk body := by
  rw [transmit_of_bodyOk kind (transmitBodyOk_append surplus h), bodyFrame_append kind surplus h,
    transmit_of_bodyOk kind h]

/-- Behind a complete command surplus nibbles change nothing (R94, D5). -/
theorem commandOf_leading_append {c0 : Byte} {mk : List Nibble → Instr} (hm : leadingByte c0 = some mk) (bound : Nat)
    {body : List Nibble} (surplus : List Nibble) (h : (mk body).wellFormed = true) :
    commandOf bound (mk (body ++ surplus)) = commandOf bound (mk body) := by
  rcases leadingByte_cases hm with
    ⟨_, rfl⟩ | ⟨_, rfl⟩ | ⟨_, rfl⟩ | ⟨_, rfl⟩ | ⟨_, rfl⟩ | ⟨_, rfl⟩ | ⟨_, rfl⟩ | ⟨_, rfl⟩ | ⟨_, rfl⟩ | ⟨_, rfl⟩ |
    ⟨_, rfl⟩ | ⟨_, rfl⟩ | ⟨_, rfl⟩
  · rfl
  · rfl
  · exact bitrateCommand_append bound surplus h
  · exact flagCommand_append _ surplus h
  · exact flagCommand_append _ surplus h
  · exact flagCommand_append _ surplus h
  · exact flagCommand_append _ surplus h
  · rfl
  · rfl
  · exact transmit_append _ surplus h
  · exact transmit_append _ surplus h
  · exact transmit_append _ surplus h
  · exact transmit_append _ surplus h

/-! ## Surplus bytes are validated -/

/-- A hex digit is converted to the number it spells (R53, R66). -/
theorem hex2nib_of_hexDigit {c : Byte} (h : HexDigit c) : ∃ v, hex2nib c = .ok v ∧ v.toNat = digitValue c := by
  unfold digitValue
  rcases h with h | h | h
  · refine ⟨_, hex2nib_decimal h, ?_⟩
    rw [if_pos (by omega), BitVec.toNat_ofNat]
    omega
  · refine ⟨_, hex2nib_upperLetter h, ?_⟩
    rw [if_neg (by omega), if_pos (by omega), BitVec.toNat_ofNat]
    omega
  · refine ⟨_, hex2nib_lowerLetter h, ?_⟩
    rw [if_neg (by omega), if_neg (by omega), BitVec.toNat_ofNat]
    omega

/-- Phase 2 converts hex digits to the numbers they spell (R90). -/
theorem hexBody_of_hexDigits {bs : List Byte} (h : ∀ c ∈ bs, HexDigit c) :
    ∃ body, hexBody bs = .ok body ∧ body.map (·.toNat) = bs.map digitValue := by
  induction bs with
  | nil => exact ⟨[], rfl, rfl⟩
  | cons c rest ih =>
    obtain ⟨hc, hrest⟩ := List.forall_mem_cons.1 h
    obtain ⟨v, hv, hvalue⟩ := hex2nib_of_hexDigit hc
    obtain ⟨body, hbody, hvalues⟩ := ih hrest
    exact ⟨v :: body, by simp only [hexBody, hv, hbody], by simp only [List.map_cons, hvalue, hvalues]⟩

/-- Settles O13: a complete command does not see its surplus, and Phase 2 converts the surplus behind the body. -/
theorem surplusIsValidatedThenIgnored : Obligations.SurplusIsValidatedThenIgnored := by
  refine ⟨fun mk hmk body surplus s hwf => ?_, fun bytes surplus i hi => ?_⟩
  · obtain ⟨c0, hlead⟩ := leadingByte_of_mem_lineForms hmk
    rw [exec_leading hlead, exec_leading hlead, commandOf_leading_append hlead _ surplus hwf]
  · obtain ⟨c0, rest, mk, body, rfl, hlead, hbody, rfl⟩ := decodeLine_ok hi
    rw [List.cons_append]
    refine ⟨fun ⟨c, hmem, hc⟩ => ?_, fun hdigits => ?_⟩
    · exact (decodeLine_cons_invalid_iff c0 _).2
        ⟨mem_leadingBytes_of_leadingByte hlead, c, List.mem_append_right rest hmem, hc⟩
    · obtain ⟨extra, hextra, hvalues⟩ := hexBody_of_hexDigits hdigits
      exact ⟨mk, mem_lineForms_of_leadingByte hlead, body, extra, rfl, hvalues,
        decodeLine_of_body hlead (hexBody_append hbody hextra)⟩

/-! ## What the result of DECODE depends on -/

/-- Settles O15: both calls end in `decodeCommand` of one bound and one line, for buffers that agree below the length
are read alike. -/
theorem decodeResultIsPure : Obligations.DecodeResultIsPure := by
  intro s u b d n rest rest' hs hu hbound hbytes
  have hline : Memory.readBytes b.bytes 0 n = Memory.readBytes d.bytes 0 n :=
    Memory.readBytes_congr fun a _ ha => hbytes a (by omega)
  refine ⟨_, _, step_freshDecode hs, step_freshDecode hu, ?_⟩
  rw [hline, hbound]

/-! ## One call, one result -/

/-- Settles O33, operation by operation: the start of the call takes it off the session, and its end sets a result. -/
theorem oneCallOneResult : Obligations.OneCallOneResult := by
  intro s t c rest hcall ht
  cases c with
  | nib2hex v =>
    rw [step_nib2hex hcall, callNib2hex_eq] at ht
    cases ht
    exact ⟨rfl, _, rfl⟩
  | hex2nib byte =>
    rw [step_hex2nib hcall, callHex2nib_eq] at ht
    cases ht
    refine ⟨rfl, ?_⟩
    cases hex2nib byte with
    | ok v => exact ⟨v, rfl⟩
    | err k => trivial
  | encode F b =>
    rw [step_encode hcall] at ht
    obtain ⟨k, rfl⟩ | rfl := encodeFrame_next_cases ht
    · exact ⟨rfl, trivial⟩
    · exact ⟨rfl, _, rfl⟩
  | decode b n =>
    rcases step_decode hcall with ⟨e, _⟩ | ⟨e, _⟩ | ⟨_, _, e⟩ <;> rw [e] at ht <;> cases ht
    refine ⟨rfl, ?_⟩
    cases decodeCommand s.params.canBitrateInvalid (Memory.readBytes (b.getD s.line).bytes 0 n) with
    | ok c => exact ⟨c, rfl⟩
    | err k => trivial

end Sys2Proof.Machine
end

section
/-! SUPPORT. Proofs of the statements about the control commands (43_control_commands.md): the nine leading bytes select
their rows, and what each row ends its call with. -/

namespace Sys2Proof.Machine

open Sys2Proof.Spec

/-! ## From a leading byte to its row, and from a row to its end -/

/-- What Phase 1 recognises is read as its row, whatever digits follow (R89, R90). -/
theorem readsAs_of_leadingByte {c0 : Byte} {mk : List Nibble → Instr} (hm : leadingByte c0 = some mk) : ReadsAs c0 mk :=
  fun _ _ => decodeLine_of_body hm

/-- A row that delivers a Command changes the result alone (R93). -/
theorem exec_leading_of_ok {c0 : Byte} {mk : List Nibble → Instr} (hm : leadingByte c0 = some mk) {body : List Nibble}
    {s : State} {c : Command} (hc : commandOf s.params.canBitrateInvalid (mk body) = .ok c) :
    exec (mk body) s = .next (okState s (.command c)) := by
  rw [exec_leading hm, hc, finish_eq, commandResult, okState]

/-- A row that fails changes the result alone (R95). -/
theorem exec_leading_of_err {c0 : Byte} {mk : List Nibble → Instr} (hm : leadingByte c0 = some mk) {body : List Nibble}
    {s : State} {k : ErrorKind} (hk : commandOf s.params.canBitrateInvalid (mk body) = .err k) :
    exec (mk body) s = .next (errState s k) := by
  rw [exec_leading hm, hk, finish_eq, commandResult, errState]

/-! ## `O`, `C`, `V`, `E` -/

/-- Settles O17: the common part of DECODE decides the bytes, and the four rows deliver their Command without reading the
body. -/
theorem noOperandCommandsComplete : Obligations.NoOperandCommandsComplete := by
  have hlower : ∀ c0 ∈ [(0x6F : Byte), 0x63, 0x76, 0x65], c0 ∉ leadingBytes := by decide
  have hupper : ∀ c0 ∈ [(0x4F : Byte), 0x43, 0x56, 0x45], c0 ∈ leadingBytes := by decide
  refine ⟨⟨?_, ?_, ?_, ?_⟩, fun c0 hmem rest => ?_, fun c0 hmem rest hbad => ?_, ?_, fun body s => ⟨?_, ?_, ?_, ?_⟩⟩
  · exact readsAs_of_leadingByte leadingByte_charO
  · exact readsAs_of_leadingByte leadingByte_charC
  · exact readsAs_of_leadingByte leadingByte_charV
  · exact readsAs_of_leadingByte leadingByte_charE
  · exact (decodeLine_cons_unknown_iff c0 rest).2 (hlower c0 hmem)
  · exact (decodeLine_cons_invalid_iff c0 rest).2 ⟨hupper c0 hmem, hbad⟩
  · exact hex2nib_upperLetter (by decide)
  · exact exec_leading_of_ok leadingByte_charO rfl
  · exact exec_leading_of_ok leadingByte_charC rfl
  · exact exec_leading_of_ok leadingByte_charV rfl
  · exact exec_leading_of_ok leadingByte_charE rfl

/-! ## `S` -/

theorem bitrateCommand_cons_of_lt {bound : Nat} {n : Nibble} (h : n.toNat < bound) (surplus : List Nibble) :
    bitrateCommand bound (n :: surplus) = .ok (.setBitrate n) :=
  if_neg (Nat.not_le.2 h)

theorem bitrateCommand_cons_of_le {bound : Nat} {n : Nibble} (h : bound ≤ n.toNat) (surplus : List Nibble) :
    bitrateCommand bound (n :: surplus) = .err .invalidBitrate :=
  if_pos h

/-- Settles O18: the two sides of the bound, and the missing operand. -/
theorem setBitrateChecksTheBound : Obligations.SetBitrateChecksTheBound := by
  refine ⟨readsAs_of_leadingByte leadingByte_charS, hex2nib_upperLetter (by decide), hex2nib_lowerLetter (by decide),
    fun n surplus s => ⟨fun hlt => ?_, fun hle => ?_, ?_⟩⟩
  · exact exec_leading_of_ok leadingByte_charS (bitrateCommand_cons_of_lt hlt surplus)
  · exact exec_leading_of_err leadingByte_charS (bitrateCommand_cons_of_le hle surplus)
  · exact exec_leading_of_err leadingByte_charS (bitrateCommand_nil s.params.canBitrateInvalid)

/-! ## `M`, `m`, `A`, `a` -/

/-- Only the nibble of value 1 is true (R99). -/
theorem flagOf_eq_decide (n : Nibble) : flagOf n = decide (n.toNat = 1) := by
  rw [flagOf, beq_eq_decide, decide_eq_decide]
  exact BitVec.toNat_eq

theorem flagCommand_cons_eq_decide (mk : Bool → Command) (n : Nibble) (surplus : List Nibble) :
    flagCommand mk (n :: surplus) = .ok (mk (decide (n.toNat = 1))) := by
  rw [flagCommand_cons, flagOf_eq_decide]

/-- Settles O19: the four rows are `flagCommand` of two Commands, each under two letters. -/
theorem flagCommandsComplete : Obligations.FlagCommandsComplete := by
  refine ⟨⟨?_, ?_, ?_, ?_⟩, fun s => ?_, fun n surplus s => ⟨?_, ?_, ?_, ?_⟩⟩
  · exact readsAs_of_leadingByte leadingByte_charUpperM
  · exact readsAs_of_leadingByte leadingByte_charLowerM
  · exact readsAs_of_leadingByte leadingByte_charUpperA
  · exact readsAs_of_leadingByte leadingByte_charLowerA
  · simp only [List.forall_mem_cons, List.not_mem_nil, false_imp_iff, implies_true, and_true]
    refine ⟨?_, ?_, ?_, ?_⟩
    · exact exec_leading_of_err leadingByte_charUpperM (flagCommand_nil .setSilentMode)
    · exact exec_leading_of_err leadingByte_charLowerM (flagCommand_nil .setSilentMode)
    · exact exec_leading_of_err leadingByte_charUpperA (flagCommand_nil .setAutoRetransmit)
    · exact exec_leading_of_err leadingByte_charLowerA (flagCommand_nil .setAutoRetransmit)
  · exact exec_leading_of_ok leadingByte_charUpperM (flagCommand_cons_eq_decide .setSilentMode n surplus)
  · exact exec_leading_of_ok leadingByte_charLowerM (flagCommand_cons_eq_decide .setSilentMode n surplus)
  · exact exec_leading_of_ok leadingByte_charUpperA (flagCommand_cons_eq_decide .setAutoRetransmit n surplus)
  · exact exec_leading_of_ok leadingByte_charLowerA (flagCommand_cons_eq_decide .setAutoRetransmit n surplus)

end Sys2Proof.Machine
end

section
/-! SUPPORT. Proofs of the statements about the transmit commands (44_transmit_commands.md): the line of a frame and its
way through DECODE and back, TRANSMIT check by check, what a delivered frame is, and what the instructions change. -/

namespace Sys2Proof.Machine

open Sys2Proof.Spec

/-! ## The four rows -/

/-- The transmit row of a frame's two kinds (R116 to R119). -/
def transmitRow : FrameKind → IdKind → List Nibble → Instr
  | .data, .standard => .txStdData
  | .data, .extended => .txExtData
  | .remote, .standard => .txStdRemote
  | .remote, .extended => .txExtRemote

/-- Each row is selected by the type character of its kinds (R58, R59). -/
@[simp] theorem leadingByte_typeChar (kind : FrameKind) (idk : IdKind) :
    leadingByte (typeChar kind idk) = some (transmitRow kind idk) := by
  cases kind <;> cases idk <;> rfl

/-- Each row runs TRANSMIT with its kinds (R109). -/
@[simp] theorem commandOf_transmitRow (bound : Nat) (kind : FrameKind) (idk : IdKind) (body : List Nibble) :
    commandOf bound (transmitRow kind idk body) = transmit kind idk body := by
  cases kind <;> cases idk <;> rfl

@[simp] theorem commandResult_eq_command_iff (r : Result Command) (c : Command) :
    commandResult r = .ok (.command c) ↔ r = .ok c := by
  cases r <;> simp [commandResult]

theorem flagCommand_ne_transmit {mk : Bool → Command} (hmk : ∀ on F, mk on ≠ .transmit F) (body : List Nibble)
    (F : CanFrame) : flagCommand mk body ≠ .ok (.transmit F) := by
  cases body with
  | nil => exact nofun
  | cons n surplus => exact fun h => hmk _ F (Result.ok.inj h)

theorem bitrateCommand_ne_transmit (bound : Nat) (body : List Nibble) (F : CanFrame) :
    bitrateCommand bound body ≠ .ok (.transmit F) := by
  cases body with
  | nil => exact nofun
  | cons n surplus =>
    rw [bitrateCommand_cons]
    split <;> exact nofun

/-- Only the transmit rows deliver a frame. -/
theorem eq_transmitRow_of_commandOf {c0 : Byte} {mk : List Nibble → Instr} (hm : leadingByte c0 = some mk) {bound : Nat}
    {body : List Nibble} {F : CanFrame} (h : commandOf bound (mk body) = .ok (.transmit F)) :
    ∃ kind idk, c0 = typeChar kind idk ∧ mk = transmitRow kind idk := by
  rcases leadingByte_cases hm with
    ⟨_, rfl⟩ | ⟨_, rfl⟩ | ⟨_, rfl⟩ | ⟨_, rfl⟩ | ⟨_, rfl⟩ | ⟨_, rfl⟩ | ⟨_, rfl⟩ | ⟨_, rfl⟩ | ⟨_, rfl⟩ | ⟨hc, rfl⟩ |
    ⟨hc, rfl⟩ | ⟨hc, rfl⟩ | ⟨hc, rfl⟩
  · cases h
  · cases h
  · exact absurd h (bitrateCommand_ne_transmit bound body F)
  · exact absurd h (flagCommand_ne_transmit (by simp) body F)
  · exact absurd h (flagCommand_ne_transmit (by simp) body F)
  · exact absurd h (flagCommand_ne_transmit (by simp) body F)
  · exact absurd h (flagCommand_ne_transmit (by simp) body F)
  · cases h
  · cases h
  · exact ⟨.data, .standard, hc, rfl⟩
  · exact ⟨.data, .extended, hc, rfl⟩
  · exact ⟨.remote, .standard, hc, rfl⟩
  · exact ⟨.remote, .extended, hc, rfl⟩

/-- A delivered frame is the one that a body of the grammar spells (R109 step 4). -/
theorem eq_bodyFrame_of_transmit {kind : FrameKind} {idk : IdKind} {body : List Nibble} {F : CanFrame}
    (h : transmit kind idk body = .ok (.transmit F)) :
    F = bodyFrame kind idk body ∧ transmitBodyOk idk body = true := by
  have hok := (transmit_ok_iff kind idk body).1 ⟨_, h⟩
  rw [transmit_of_bodyOk kind hok] at h
  cases h
  exact ⟨rfl, hok⟩

theorem wellFormed_of_bodyOk (kind : FrameKind) {idk : IdKind} {body : List Nibble} (h : transmitBodyOk idk body = true) :
    frameWellFormed (bodyFrame kind idk body) = true := by
  obtain ⟨hid, hdlc, -⟩ := (transmitBodyOk_iff idk body).1 h
  exact bodyFrame_wellFormed hid hdlc

/-! ## The line of a frame -/

/-- The message of a frame without its terminator (R74 to R77): a line that DECODE takes (R120). -/
def frameLine (F : CanFrame) : List Byte := typeChar F.frameKind F.idKind :: (frameDigits F).map nib2hex

theorem message_eq_frameLine (F : CanFrame) : message F = frameLine F ++ [cr] := rfl

theorem frameLine_length {F : CanFrame} (h : F.dlc.toNat ≤ 8) :
    (frameLine F).length = idWidth F.idKind + 2 + 2 * F.dlc.toNat := by
  rw [frameLine, List.length_cons, List.length_map, frameDigits_length h]
  omega

theorem message_length_frameLine (F : CanFrame) : (message F).length = (frameLine F).length + 1 := by
  simp [message_eq_frameLine]

/-- The line of a frame stands in OUT from index 0, whatever OUT held. -/
theorem read_written_line (m : Memory) {F : CanFrame} {a : Nat} (ha : a < (frameLine F).length) :
    Memory.read (Memory.writeBytes m 0 (message F)) a = (frameLine F)[a] := by
  refine read_written_message m ?_
  rw [message_eq_frameLine, List.getElem?_append_left ha, List.getElem?_eq_getElem ha]

theorem readBytes_written_line (m : Memory) (F : CanFrame) :
    Memory.readBytes (Memory.writeBytes m 0 (message F)) 0 (frameLine F).length = frameLine F := by
  refine List.ext_getElem (Memory.readBytes_length ..) fun a _ ha => ?_
  rw [Memory.readBytes_getElem, Nat.zero_add, read_written_line m ha]

/-- An ENCODE call that keeps the contract emits a well-formed frame (R80). -/
theorem step_freshEncode {s : State} {F : CanFrame} {b : Buffer} {rest : List Call} (h : FreshEncode s F b rest)
    (hF : frameWellFormed F = true) : step s = .next ((s.begin (.encode F (some b)) rest).emitFrame F) := by
  rw [step_encode h.call]
  exact encodeFrame_of_no_error h.owned h.room (frameError_none ((frameWellFormed_iff F).1 hF))

/-! ## DECODE after ENCODE -/

/-- DECODE delivers the frame that a line was written from (R120). -/
theorem decodeCommand_frameLine (bound : Nat) {F : CanFrame} (hF : frameWellFormed F = true) :
    decodeCommand bound (frameLine F) = .ok (.transmit (canonicalFrame F)) := by
  obtain ⟨hid, hdlc⟩ := (frameWellFormed_iff F).1 hF
  have hline : decodeLine (frameLine F) = .ok (transmitRow F.frameKind F.idKind (frameDigits F)) :=
    decodeLine_of_body (leadingByte_typeChar ..) (hexBody_map_nib2hex _)
  simp only [decodeCommand, hline, commandOf_transmitRow, transmit_frameDigits F hid hdlc]

/-- A frame and its canonical form are the same frame (R17, D19). -/
theorem sameFrame_canonicalFrame (F : CanFrame) : sameFrame (canonicalFrame F) F = true :=
  decide_eq_true (canonicalFrame_idem F)

/-- Settles O29: OUT holds the line of the frame, and DECODE delivers the frame that the line was written from. -/
theorem decodeOfEncodedFrameIsTheFrame : Obligations.DecodeOfEncodedFrameIsTheFrame := by
  intro s F b rest h hF
  obtain ⟨-, hdlc⟩ := (frameWellFormed_iff F).1 hF
  have hlen := message_length_frameLine F
  have hroom : (frameLine F).length ≤ b.capacity := by
    have hmessage := (message_length_bounds hdlc).2
    have hcap := h.room
    omega
  refine ⟨_, _, step_freshEncode h hF, rfl, fun u rest' hcall => ?_⟩
  rw [hlen, Nat.add_sub_cancel] at hcall
  refine ⟨_, step_freshDecode ⟨hcall, h.owned, hroom⟩, ?_, sameFrame_canonicalFrame F⟩
  simp only [State.emitFrame_out, readBytes_written_line, decodeCommand_frameLine _ hF, commandResult]

/-! ## ENCODE after DECODE -/

@[simp] theorem upperLine_length (bytes : List Byte) : (upperLine bytes).length = bytes.length := by
  cases bytes <;> simp [upperLine]

theorem upperLine_getElem (bytes : List Byte) {a : Nat} (h : a < bytes.length) :
    (upperLine bytes)[a]'(by simpa using h) = if a = 0 then bytes[a] else upper bytes[a] := by
  cases bytes with
  | nil => cases h
  | cons c0 rest => cases a <;> simp [upperLine]

/-- A line that delivers a frame begins, letters uppercased, with the frame's own line; behind it stands surplus (R94,
R120). -/
theorem frameLine_prefix_of_decodeCommand {bound : Nat} {bytes : List Byte} {F : CanFrame}
    (h : decodeCommand bound bytes = .ok (.transmit F)) :
    frameWellFormed F = true ∧ frameLine F <+: upperLine bytes := by
  unfold decodeCommand at h
  cases hline : decodeLine bytes with
  | err k => simp only [hline, reduceCtorEq] at h
  | ok i =>
    simp only [hline] at h
    obtain ⟨c0, rest, mk, body, rfl, hlead, hbody, rfl⟩ := decodeLine_ok hline
    obtain ⟨kind, idk, rfl, rfl⟩ := eq_transmitRow_of_commandOf hlead h
    rw [commandOf_transmitRow] at h
    obtain ⟨rfl, hok⟩ := eq_bodyFrame_of_transmit h
    obtain ⟨-, hdlc, hlen⟩ := (transmitBodyOk_iff idk body).1 hok
    have hupper : rest.map upper = body.map nib2hex := (map_nib2hex_hexBody hbody).symm
    refine ⟨wellFormed_of_bodyOk kind hok, ?_⟩
    rw [frameLine, frameDigits_bodyFrame hdlc hlen, upperLine, hupper]
    exact List.cons_prefix_cons.2 ⟨rfl, (List.take_prefix _ _).map _⟩

theorem idWidth_eq_ite (idk : IdKind) : idWidth idk = if idk = .standard then 3 else 8 := by
  cases idk <;> rfl

/-- Settles O30: ENCODE writes the frame's own line, with which the decoded line begins. -/
theorem encodeOfDecodedFrameIsTheLine : Obligations.EncodeOfDecodedFrameIsTheLine := by
  intro s t b n rest F h ht hres u d rest' hu
  rw [step_freshDecode h] at ht
  cases ht
  have hcommand := (commandResult_eq_command_iff _ _).1 (Option.some.inj hres)
  obtain ⟨hF, hprefix⟩ := frameLine_prefix_of_decodeCommand hcommand
  obtain ⟨-, hdlc⟩ := (frameWellFormed_iff F).1 hF
  have hle : (frameLine F).length ≤ n := by simpa using hprefix.length_le
  refine ⟨_, (frameLine F).length, step_freshEncode hu hF, ?_, hle, ?_, fun a ha => ?_, ?_⟩
  · rw [State.emitFrame_result, message_length_frameLine]
  · rw [frameLine_length hdlc, idWidth_eq_ite]
  · rw [State.emitFrame_out, read_written_line _ ha, hprefix.getElem ha, upperLine_getElem _ (by simp; omega),
      Memory.readBytes_getElem, Nat.zero_add]
    split
    · next h0 => rw [h0]
    · rfl
  · rw [State.emitFrame_out]
    exact read_written_last _ (by rw [frameLine, List.length_cons, List.length_map])

/-! ## The fields of a delivered frame -/

/-- The identifier's sum by place, digit by digit (R54). -/
theorem idValue_succ (w : Nat) (n : Nibble) (body : List Nibble) :
    idValue (w + 1) (n :: body) = n.toNat * 16 ^ w + idValue w body := by
  simp only [idValue, List.range_succ_eq_map, List.map_cons, List.map_map, List.sum_cons]
  congr 2
  refine List.map_congr_left fun k _ => ?_
  simp only [Function.comp_apply, Nat.succ_eq_add_one, List.getD_cons_succ]
  congr 2
  omega

/-- Assembling the identifier digit by digit gives their sum by place (R54, R112). -/
theorem assembleId_take {w : Nat} {body : List Nibble} (h : w ≤ body.length) :
    assembleId (body.take w) = idValue w body := by
  induction w generalizing body with
  | zero => rfl
  | succ w ih =>
    cases body with
    | nil => cases h
    | cons n rest =>
      have hw : w ≤ rest.length := Nat.le_of_succ_le_succ h
      rw [List.take_succ_cons, assembleId_cons, ih hw, List.length_take_of_le hw, idValue_succ]

theorem bodyFrame_id_toNat (kind : FrameKind) {idk : IdKind} {body : List Nibble}
    (h : assembleId (body.take (idWidth idk)) ≤ idMax idk) :
    (bodyFrame kind idk body).id.toNat = assembleId (body.take (idWidth idk)) := by
  have hmax := idMax_lt_word idk
  rw [bodyFrame, BitVec.toNat_ofNat, Nat.mod_eq_of_lt (by omega)]

/-- The data digits are all there, so each gives its byte (R115). -/
theorem bodyData_length {w : Nat} {body : List Nibble} (h : w + 1 + 2 * (bodyAt body w).toNat ≤ body.length) :
    (bodyData w body).length = (bodyAt body w).toNat := by
  rw [bodyData, pairBytes_length, List.length_take_of_le (by rw [List.length_drop]; omega)]
  omega

/-- Data byte `j` is the `j`-th pair of digits behind the DLC (R115). -/
theorem bodyData_getElem? {w j : Nat} {body : List Nibble} (h : w + 1 + 2 * (bodyAt body w).toNat ≤ body.length)
    (hj : j < (bodyAt body w).toNat) :
    (bodyData w body)[j]? = some (joinByte (bodyAt body (w + 1 + 2 * j)) (bodyAt body (w + 2 + 2 * j))) := by
  have hdigit : ∀ k, k < 2 * (bodyAt body w).toNat →
      ((body.drop (w + 1)).take (2 * (bodyAt body w).toNat)).getD k 0 = bodyAt body (w + 1 + k) := by
    intro k hk
    simp only [bodyAt, List.getD_eq_getElem?_getD] at hk ⊢
    rw [List.getElem?_take_of_lt hk, List.getElem?_drop]
  rw [bodyData, pairBytes_getElem? _ _ (by rw [List.length_take, List.length_drop]; omega), hdigit _ (by omega),
    hdigit _ (by omega), show w + 1 + (2 * j + 1) = w + 2 + 2 * j by omega]

/-- The carrier holds the data bytes, and 0 beyond them (R115, D19). -/
theorem bodyFrame_data_toNat (kind : FrameKind) {idk : IdKind} {body : List Nibble}
    (h : idWidth idk + 1 + 2 * (bodyAt body (idWidth idk)).toNat ≤ body.length) (j : Fin 8) :
    (bodyFrame kind idk body).data[j].toNat =
      if j.val < (bodyAt body (idWidth idk)).toNat then
        16 * (bodyAt body (idWidth idk + 1 + 2 * j.val)).toNat + (bodyAt body (idWidth idk + 2 + 2 * j.val)).toNat
      else 0 := by
  have hbyte : (bodyFrame kind idk body).data[j] = (bodyData (idWidth idk) body).getD j.val 0 :=
    dataField_getElem _ _ j.isLt
  rw [hbyte, List.getD_eq_getElem?_getD]
  split
  · next hj => rw [bodyData_getElem? h hj, Option.getD_some, joinByte_toNat]
  · next hj => rw [List.getElem?_eq_none (by rw [bodyData_length h]; omega)]; rfl

/-! ## TRANSMIT, check by check -/

section
variable (kind : FrameKind) {idk : IdKind} {body : List Nibble}

/-- R111: every identifier digit is needed. -/
theorem transmit_of_short (h : body.length < idWidth idk) : transmit kind idk body = .err .truncatedInput :=
  if_pos h

/-- R113: the range of the identifier is checked before the DLC is needed. -/
theorem transmit_of_id (hlen : idWidth idk ≤ body.length) (hid : idMax idk < assembleId (body.take (idWidth idk))) :
    transmit kind idk body = .err .identifierOutOfRange := by
  rw [transmit, if_neg (by omega), if_pos hid]

/-- R114: the DLC digit is needed. -/
theorem transmit_of_no_dlc (hlen : body.length = idWidth idk)
    (hid : assembleId (body.take (idWidth idk)) ≤ idMax idk) : transmit kind idk body = .err .truncatedInput := by
  rw [transmit, if_neg (by omega), if_neg (by omega), if_pos (by omega)]

/-- R114: the DLC is checked before the data digits are needed. -/
theorem transmit_of_dlc (hlen : idWidth idk + 1 ≤ body.length)
    (hid : assembleId (body.take (idWidth idk)) ≤ idMax idk) (hdlc : 8 < (bodyAt body (idWidth idk)).toNat) :
    transmit kind idk body = .err .invalidDlc := by
  rw [transmit, if_neg (by omega), if_neg (by omega), if_neg (by omega), if_pos hdlc]

/-- R115: every data digit is needed. -/
theorem transmit_of_short_data (hlen : idWidth idk + 1 ≤ body.length)
    (hid : assembleId (body.take (idWidth idk)) ≤ idMax idk) (hdlc : (bodyAt body (idWidth idk)).toNat ≤ 8)
    (hdata : body.length < idWidth idk + 1 + 2 * (bodyAt body (idWidth idk)).toNat) :
    transmit kind idk body = .err .truncatedInput := by
  rw [transmit, if_neg (by omega), if_neg (by omega), if_neg (by omega), if_neg (Nat.not_lt.2 hdlc), if_pos hdata]

end

/-- The table of R110 is the model's own tables at the two kinds of each row. -/
theorem transmitForms_spec {f : TransmitForm} (hf : f ∈ transmitForms) : ∃ kind idk,
    f = ⟨typeChar kind idk, transmitRow kind idk, kind, idk, idWidth idk, idMax idk⟩ := by
  simp only [transmitForms, List.cons_append, List.nil_append, List.mem_cons, List.not_mem_nil, or_false] at hf
  rcases hf with rfl | rfl | rfl | rfl
  · exact ⟨.data, .standard, rfl⟩
  · exact ⟨.data, .extended, rfl⟩
  · exact ⟨.remote, .standard, rfl⟩
  · exact ⟨.remote, .extended, rfl⟩

/-- Settles O20: the four rows are TRANSMIT of their kinds, and each clause is one of its checks. -/
theorem transmitFollowsTheSteps : Obligations.TransmitFollowsTheSteps := by
  intro f hf
  obtain ⟨kind, idk, rfl⟩ := transmitForms_spec hf
  have hlead := leadingByte_typeChar kind idk
  refine ⟨readsAs_of_leadingByte hlead, fun body s => ?_⟩
  have hfails : ∀ {k}, transmit kind idk body = .err k → exec (transmitRow kind idk body) s = .next (errState s k) :=
    fun hk => exec_leading_of_err hlead (by rw [commandOf_transmitRow, hk])
  refine ⟨fun hlen => ?_, fun hlen hid => ?_, fun hlen hid => ?_, fun hlen hid hdlc => ?_,
    fun hlen hid hdlc hdata => ?_, fun hlen hid hdlc => ?_⟩
  · exact hfails (transmit_of_short kind hlen)
  · rw [← assembleId_take hlen] at hid
    exact hfails (transmit_of_id kind hlen hid)
  · rw [← assembleId_take hlen.ge] at hid
    exact hfails (transmit_of_no_dlc kind hlen hid)
  · rw [← assembleId_take (Nat.le_of_succ_le hlen)] at hid
    exact hfails (transmit_of_dlc kind hlen hid hdlc)
  · rw [← assembleId_take (Nat.le_of_succ_le hlen)] at hid
    exact hfails (transmit_of_short_data kind hlen hid hdlc hdata)
  · rw [← assembleId_take (by omega)] at hid ⊢
    have hok := (transmitBodyOk_iff idk body).2 ⟨hid, hdlc, hlen⟩
    refine ⟨bodyFrame kind idk body, exec_leading_of_ok hlead ?_, rfl, rfl, bodyFrame_id_toNat kind hid, rfl,
      bodyFrame_data_toNat kind hlen⟩
    rw [commandOf_transmitRow, transmit_of_bodyOk kind hok]

/-! ## What a line delivers -/

theorem id_le_of_wellFormed {F : CanFrame} (h : frameWellFormed F = true) :
    (F.idKind = .standard → F.id.toNat ≤ 0x7FF) ∧ (F.idKind = .extended → F.id.toNat ≤ 0x1FFFFFFF) := by
  obtain ⟨hid, -⟩ := (frameWellFormed_iff F).1 h
  exact ⟨fun hk => by rwa [hk] at hid, fun hk => by rwa [hk] at hid⟩

/-- Settles O21: a delivered frame is the frame of a body that has passed every check. -/
theorem deliveredFramesAreWellFormed : Obligations.DeliveredFramesAreWellFormed := by
  intro mk hmk body s t F ht hres
  obtain ⟨c0, hlead⟩ := leadingByte_of_mem_lineForms hmk
  rw [exec_leading hlead, finish_eq] at ht
  cases ht
  have hcommand := (commandResult_eq_command_iff _ _).1 (Option.some.inj hres)
  obtain ⟨kind, idk, -, rfl⟩ := eq_transmitRow_of_commandOf hlead hcommand
  rw [commandOf_transmitRow] at hcommand
  obtain ⟨rfl, hok⟩ := eq_bodyFrame_of_transmit hcommand
  obtain ⟨-, hdlc, hlen⟩ := (transmitBodyOk_iff idk body).1 hok
  obtain ⟨hstandard, hextended⟩ := id_le_of_wellFormed (wellFormed_of_bodyOk kind hok)
  refine ⟨hstandard, hextended, hdlc, fun j hj => BitVec.eq_of_toNat_eq ?_⟩
  exact (bodyFrame_data_toNat kind hlen j).trans (if_neg (Nat.not_lt.2 hj))

/-! ## What the instructions change -/

/-- The frame of an ENCODE call selects one of the four forms (R59). -/
theorem decodeFrame_mem_encodeForms (F : CanFrame) : ∃ f ∈ encodeForms, decodeFrame F = f.instr F.id F.dlc F.data := by
  obtain ⟨kind, idk, id, dlc, data⟩ := F
  cases kind <;> cases idk <;> simp [encodeForms, decodeFrame]

theorem exec_of_encode_line {i : Instr} {bytes : List Byte} (h : encode i = .line bytes) (s : State) :
    exec i s = s.finish (commandOf s.params.canBitrateInvalid i) := by
  have hexec := exec_encode i s
  rwa [h] at hexec

/-- Settles O31: NIB2HEX, HEX2NIB and DECODE write their result alone, and an instruction whose image is a frame is an
ENCODE form. -/
theorem onlyEncodeChangesMoreThanTheResult : Obligations.OnlyEncodeChangesMoreThanTheResult := by
  intro i s t hne ht
  cases hm : encode i with
  | nibble v => rw [exec_of_encode_nibble hm, callNib2hex_eq] at ht; cases ht; rfl
  | char c => rw [exec_of_encode_char hm, callHex2nib_eq] at ht; cases ht; rfl
  | line bytes => rw [exec_of_encode_line hm, finish_eq] at ht; cases ht; rfl
  | frame F =>
    have hi := decodeOfEncodeIsIdentity i
    rw [hm] at hi
    cases hi
    obtain ⟨f, hf, hform⟩ := decodeFrame_mem_encodeForms F
    exact absurd hform (hne f hf _ _ _)

end Sys2Proof.Machine
end

section
/-! SUPPORT. Proofs of the statements about the replies and the collaborators (45_replies_and_collaborators.md): what the
caller does after a call is a function of its result, and the digits of the error reply, by place. -/

namespace Sys2Proof.Machine

open Sys2Proof.Spec

/-! ## What the caller does with a result -/

theorem State.delivery_of_err {s : State} {k : ErrorKind} (h : s.result = some (.err k)) : s.delivery = none := by
  rw [State.delivery, h]

theorem State.delivery_of_length {s : State} {n : Nat} (h : s.result = some (.ok (.length n))) :
    s.delivery = some (.send (Memory.readBytes s.out.bytes 0 n)) := by
  rw [State.delivery, h]

theorem State.delivery_of_command {s : State} {c : Command} (h : s.result = some (.ok (.command c))) :
    s.delivery = some (consumer s.params s.errorRegister c) := by
  rw [State.delivery, h]

/-- A row that delivers a Command reaches the Command's consumer (R124). -/
theorem delivery_okState_command (s : State) (c : Command) :
    (okState s (.command c)).delivery = some (consumer s.params s.errorRegister c) :=
  State.delivery_of_command rfl

/-- Settles O42: an error, a length, and each Command with its row of the pairing (R124). -/
theorem resultsReachTheirConsumers : Obligations.ResultsReachTheirConsumers := by
  refine ⟨fun _ _ => State.delivery_of_err, fun s n hlen => ?_, fun s c hcommand => ?_⟩
  · refine ⟨_, State.delivery_of_length hlen, Memory.readBytes_length .., fun a ha => ?_⟩
    rw [List.getElem?_eq_getElem (by simpa using ha), Memory.readBytes_getElem, Nat.zero_add]
  · have hconsumer := State.delivery_of_command hcommand
    cases c with
    | opened | closed | setBitrate | setSilentMode | setAutoRetransmit | transmit => exact hconsumer
    | queryVersion | queryErrorRegister => exact ⟨_, hconsumer⟩

/-! ## The reply to `V` -/

/-- Settles O40: `V` delivers QueryVersion, whose consumer sends the version reply. -/
theorem versionReplyIsTheStringAndCr : Obligations.VersionReplyIsTheStringAndCr :=
  fun _ _ => ⟨_, exec_leading_of_ok leadingByte_charV rfl, delivery_okState_command ..⟩

/-! ## The reply to `E` -/

@[simp] theorem regDigits_length (n e : Nat) : (regDigits n e).length = n := by
  induction n with
  | zero => rfl
  | succ n ih => rw [regDigits, List.length_cons, ih]

/-- The digit of weight `16 ^ k` stands `k` places before the last. -/
theorem regDigits_getElem? {n k : Nat} (e : Nat) (h : k < n) :
    (regDigits n e)[n - 1 - k]? = some (BitVec.ofNat 4 (e / 16 ^ k)) := by
  induction n with
  | zero => omega
  | succ n ih =>
    rw [regDigits]
    rcases Nat.lt_succ_iff_lt_or_eq.1 h with hlt | rfl
    · rw [show n + 1 - 1 - k = n - 1 - k + 1 by omega, List.getElem?_cons_succ, ih hlt]
    · rw [show k + 1 - 1 - k = 0 by omega, List.getElem?_cons_zero]

@[simp] theorem errorReply_length (bits e : Nat) : (errorReply bits e).length = regDigitCount bits + 1 := by
  simp [errorReply]

theorem errorReply_getElem?_digit {bits k : Nat} (e : Nat) (h : k < regDigitCount bits) :
    (errorReply bits e)[regDigitCount bits - 1 - k]? = some (digit (e / 16 ^ k % 16)) := by
  have hplace : regDigitCount bits - 1 - k < ((regDigits (regDigitCount bits) e).map nib2hex).length := by
    simp only [List.length_map, regDigits_length]
    omega
  rw [errorReply, List.getElem?_append_left hplace, List.getElem?_map, regDigits_getElem? e h, Option.map_some,
    nib2hex_eq_digit, BitVec.toNat_ofNat]

/-- The terminator stands last (D17). -/
theorem errorReply_getElem?_last (bits e : Nat) : (errorReply bits e)[regDigitCount bits]? = some cr := by
  simp [errorReply]

/-- Settles O41: `E` delivers QueryErrorRegister, whose consumer sends the error reply, read at each place. -/
theorem errorReplyIsFixedWidthHex : Obligations.ErrorReplyIsFixedWidthHex :=
  fun _ s => ⟨_, errorReply s.params.errRegBits s.errorRegister, exec_leading_of_ok leadingByte_charE rfl,
    delivery_okState_command .., errorReply_length .., fun _ => errorReply_getElem?_digit _,
    errorReply_getElem?_last ..⟩

end Sys2Proof.Machine
end

section
/-! SUPPORT. Proofs of the statements about the exceptions (60_exceptions.md): a session that keeps its contract never
stops, which calls end alike, and which error kind is raised where. -/

namespace Sys2Proof.Machine

open Sys2Proof.Spec

/-! ## A session that keeps its contract -/

theorem keepsContract_head {s : State} (h : s.KeepsContract) {c : Call} {rest : List Call}
    (hcalls : s.calls = c :: rest) : c.keepsContract :=
  h.calls c (hcalls ▸ List.mem_cons_self ..)

/-- What is left of the session keeps the contract in every state whose OUT is lawful. -/
theorem keepsContract_tail {s t : State} (h : s.KeepsContract) {c : Call} {rest : List Call}
    (hcalls : s.calls = c :: rest) (ht : t.calls = rest) (howned : t.out.exclusive = true)
    (hroom : outMin ≤ t.out.capacity) : t.KeepsContract where
  calls d hd := h.calls d (hcalls ▸ List.mem_cons_of_mem c (ht ▸ hd))
  outOwned := howned
  outRoom := hroom

/-- The OUT of a call that keeps the contract is lawful, brought or standing (R151, R153). -/
theorem lawful_out_of_keepsContract {s : State} (h : s.KeepsContract) {F : CanFrame} {b : Option Buffer}
    (hc : (Call.encode F b).keepsContract) :
    (b.getD s.out).exclusive = true ∧ outMin ≤ (b.getD s.out).capacity := by
  cases b with
  | none => exact ⟨h.outOwned, h.outRoom⟩
  | some x => exact hc x rfl

/-- ENCODE into a lawful OUT completes: the session is as it was, and OUT has its owner and its room (R80). -/
theorem encodeFrame_of_lawful {F : CanFrame} {s : State} (howned : s.out.exclusive = true)
    (hroom : outMin ≤ s.out.capacity) : ∃ t, s.encodeFrame F = .next t ∧ t.calls = s.calls ∧
      t.out.exclusive = s.out.exclusive ∧ t.out.capacity = s.out.capacity := by
  cases he : frameError F with
  | some k => exact ⟨_, encodeFrame_of_error howned hroom he, rfl, rfl, rfl⟩
  | none => exact ⟨_, encodeFrame_of_no_error howned hroom he, rfl, rfl, rfl⟩

/-- One step of a session that keeps its contract: it completes, takes the first call off and leaves the contract kept
(R144). -/
theorem step_keepsContract {s : State} (h : s.KeepsContract) :
    ∃ t, step s = .next t ∧ t.KeepsContract ∧ t.calls = s.calls.drop 1 := by
  cases hcalls : s.calls with
  | nil => exact ⟨s, step_idle hcalls, h, hcalls⟩
  | cons c rest =>
    have hc := keepsContract_head h hcalls
    cases c with
    | nib2hex v =>
      rw [step_nib2hex hcalls, callNib2hex_eq]
      exact ⟨_, rfl, keepsContract_tail h hcalls rfl h.outOwned h.outRoom, rfl⟩
    | hex2nib byte =>
      rw [step_hex2nib hcalls, callHex2nib_eq]
      exact ⟨_, rfl, keepsContract_tail h hcalls rfl h.outOwned h.outRoom, rfl⟩
    | encode F b =>
      obtain ⟨howned, hroom⟩ := lawful_out_of_keepsContract h hc
      obtain ⟨t, ht, hrest, hx, hcap⟩ := encodeFrame_of_lawful (F := F) (s := s.begin (.encode F b) rest) howned hroom
      rw [step_encode hcalls]
      exact ⟨t, ht, keepsContract_tail h hcalls hrest (hx.trans howned) (hcap ▸ hroom), hrest⟩
    | decode b n =>
      obtain ⟨x, rfl, howned, hlen⟩ := hc
      exact ⟨_, step_freshDecode ⟨hcalls, howned, hlen⟩, keepsContract_tail h hcalls rfl h.outOwned h.outRoom, rfl⟩

theorem run_succ_of_step {s t : State} (h : step s = .next t) (k : Nat) :
    Host.Core.run core (k + 1) s = Host.Core.run core k t := by
  have hcore : core.step s = .next t := h
  simp only [Host.Core.run, hcore]

/-- Settles O39, by induction on the number of steps. -/
theorem contractedSessionNeverStops : Obligations.ContractedSessionNeverStops := by
  intro s h k
  induction k generalizing s with
  | zero => exact ⟨s, rfl, h, rfl⟩
  | succ k ih =>
    obtain ⟨u, hu, hkept, hcalls⟩ := step_keepsContract h
    obtain ⟨t, ht, htkept, htcalls⟩ := ih u hkept
    refine ⟨t, (run_succ_of_step hu k).trans ht, htkept, ?_⟩
    rw [htcalls, hcalls, List.drop_drop, Nat.add_comm]

/-! ## Calls that end alike -/

/-- Settles O34: the parameters and the buffer that a call uses are all that its result depends on. -/
theorem callsAreIndependent : Obligations.CallsAreIndependent :=
  fun _ _ _ _ _ => resultOf_step_congr
/-! ## Which kinds a DECODE row can raise -/

/-- `O`, `C`, `V`, `E`: the rows that read no body (R100, R101, R107, R108). -/
abbrev noOperandBytes : List Byte := [0x4F, 0x43, 0x56, 0x45]

/-- `M`, `m`, `A`, `a`: the rows of one flag (R99). -/
abbrev flagBytes : List Byte := [0x4D, 0x6D, 0x41, 0x61]

/-- `t`, `T`, `r`, `R`: the transmit rows (R110). -/
abbrev transmitBytes : List Byte := [0x74, 0x54, 0x72, 0x52]

/-- The thirteen leading bytes by what their rows can raise (R138). -/
theorem mem_leadingBytes_iff {c0 : Byte} :
    c0 ∈ leadingBytes ↔ c0 ∈ noOperandBytes ∨ c0 = charS ∨ c0 ∈ flagBytes ∨ c0 ∈ transmitBytes := by
  have hgroup : ∀ c ∈ leadingBytes, c ∈ noOperandBytes ∨ c = charS ∨ c ∈ flagBytes ∨ c ∈ transmitBytes := by decide
  refine ⟨hgroup c0, ?_⟩
  rintro (h | rfl | h | h)
  · exact (by decide : noOperandBytes ⊆ leadingBytes) h
  · decide
  · exact (by decide : flagBytes ⊆ leadingBytes) h
  · exact (by decide : transmitBytes ⊆ leadingBytes) h

theorem commandOf_noOperand {c0 : Byte} {mk : List Nibble → Instr} (hm : leadingByte c0 = some mk)
    (h : c0 ∈ noOperandBytes) (bound : Nat) (body : List Nibble) : ∃ command, commandOf bound (mk body) = .ok command := by
  fin_cases h <;> cases hm <;> exact ⟨_, rfl⟩

theorem commandOf_charS {mk : List Nibble → Instr} (hm : leadingByte charS = some mk) (bound : Nat) (body : List Nibble) :
    commandOf bound (mk body) = bitrateCommand bound body := by
  cases hm; rfl

theorem commandOf_flag {c0 : Byte} {mk : List Nibble → Instr} (hm : leadingByte c0 = some mk) (h : c0 ∈ flagBytes)
    (bound : Nat) (body : List Nibble) : ∃ command, commandOf bound (mk body) = flagCommand command body := by
  fin_cases h <;> cases hm <;> exact ⟨_, rfl⟩

/-- Each transmit byte stands in one row of the table of R110. -/
theorem exists_transmitForm {c0 : Byte} (h : c0 ∈ transmitBytes) : ∃ f ∈ transmitForms, f.char = c0 :=
  List.mem_map.1 (show c0 ∈ transmitForms.map (·.char) from h)

theorem commandOf_transmitForm {f : TransmitForm} (hf : f ∈ transmitForms) {mk : List Nibble → Instr}
    (hm : leadingByte f.char = some mk) (bound : Nat) (body : List Nibble) :
    commandOf bound (mk body) = transmit f.kind f.idKind body := by
  obtain ⟨kind, idk, rfl⟩ := transmitForms_spec hf
  rw [leadingByte_typeChar] at hm
  cases hm
  exact commandOf_transmitRow bound kind idk body

/-- A recognised line that fails has a body byte that is no hex digit, or its command fails (R139). -/
theorem decodeCommand_leading_err {c0 : Byte} {mk : List Nibble → Instr} (hm : leadingByte c0 = some mk) {bound : Nat}
    {rest : List Byte} {k : ErrorKind} (h : decodeCommand bound (c0 :: rest) = .err k) :
    k = .invalidCharacter ∨ ∃ body, commandOf bound (mk body) = .err k := by
  cases hb : hexBody rest with
  | err e =>
    obtain ⟨rfl, -⟩ := (hexBody_err_iff rest e).1 hb
    simp only [decodeCommand, decodeLine, hm, hb] at h
    cases h
    exact .inl rfl
  | ok body =>
    simp only [decodeCommand, decodeLine_of_body hm hb] at h
    exact .inr ⟨body, h⟩

/-- A leading byte outside R58 is rejected before anything else is looked at (R60). -/
theorem decodeCommand_unknown {c0 : Byte} (h : c0 ∉ leadingBytes) (bound : Nat) (rest : List Byte) :
    decodeCommand bound (c0 :: rest) = .err .unknownCommand :=
  (decodeCommand_common_err_iff (.inl rfl)).2 ((decodeLine_cons_unknown_iff c0 rest).2 h)

theorem exists_leadingByte {c0 : Byte} (h : c0 ∈ leadingBytes) : ∃ mk, leadingByte c0 = some mk :=
  Option.ne_none_iff_exists'.1 fun hnone => (leadingByte_none_iff_notMem c0).1 hnone h

theorem flagCommand_err_iff (mk : Bool → Command) (body : List Nibble) (k : ErrorKind) :
    flagCommand mk body = .err k ↔ k = .truncatedInput ∧ body = [] := by
  cases body with
  | nil => simp [eq_comm]
  | cons n surplus => simp

section
variable {bound : Nat} {c0 : Byte} {rest : List Byte} {k : ErrorKind} (h : decodeCommand bound (c0 :: rest) = .err k)
include h

theorem decodeCommand_noOperand_err (hc : c0 ∈ noOperandBytes) : k = .invalidCharacter := by
  obtain ⟨mk, hm⟩ := exists_leadingByte (mem_leadingBytes_iff.2 (.inl hc))
  obtain hk | ⟨body, hk⟩ := decodeCommand_leading_err hm h
  · exact hk
  · obtain ⟨command, hok⟩ := commandOf_noOperand hm hc bound body
    rw [hok] at hk
    cases hk

theorem decodeCommand_bitrate_err (hc : c0 = charS) :
    k = .invalidCharacter ∨ k = .invalidBitrate ∨ k = .truncatedInput := by
  subst hc
  exact (decodeCommand_leading_err leadingByte_charS h).imp_right fun ⟨_, hk⟩ => bitrateCommand_err hk

theorem decodeCommand_flag_err (hc : c0 ∈ flagBytes) : k = .invalidCharacter ∨ k = .truncatedInput := by
  obtain ⟨mk, hm⟩ := exists_leadingByte (mem_leadingBytes_iff.2 (.inr (.inr (.inl hc))))
  refine (decodeCommand_leading_err hm h).imp_right fun ⟨body, hk⟩ => ?_
  obtain ⟨command, hflag⟩ := commandOf_flag hm hc bound body
  exact flagCommand_err (hflag ▸ hk)

theorem decodeCommand_transmit_err (hc : c0 ∈ transmitBytes) :
    k = .invalidCharacter ∨ k = .invalidDlc ∨ k = .truncatedInput ∨ k = .identifierOutOfRange := by
  obtain ⟨f, hf, rfl⟩ := exists_transmitForm hc
  obtain ⟨mk, hm⟩ := exists_leadingByte (mem_leadingBytes_iff.2 (.inr (.inr (.inr hc))))
  refine (decodeCommand_leading_err hm h).imp_right fun ⟨body, hk⟩ => ?_
  exact transmit_err (commandOf_transmitForm hf hm bound body ▸ hk)

theorem decodeCommand_unknown_err (hc : c0 ∉ leadingBytes) : k = .unknownCommand := by
  rw [decodeCommand_unknown hc] at h
  cases h
  rfl

end

/-- HEX2NIB has one kind (R67). -/
theorem step_hex2nib_err {s t : State} {c : Byte} {rest : List Call} (hcall : s.calls = .hex2nib c :: rest)
    (ht : step s = .next t) {k : ErrorKind} (hk : t.result = some (.err k)) : k = .invalidCharacter := by
  obtain ⟨u, hu, hiff⟩ := step_hex2nib_err_iff hcall k
  rw [ht] at hu
  cases hu
  exact ((hex2nib_err_iff c k).1 (hiff.1 hk)).1

/-- Settles O32, operation by operation, and for DECODE group by group of the leading byte. -/
theorem errorKindsByOperation : Obligations.ErrorKindsByOperation := by
  intro s t c rest k hcall ht hk
  cases c with
  | nib2hex v => exact step_nib2hex_ne_err hcall ht k hk
  | hex2nib byte => exact step_hex2nib_err hcall ht hk
  | encode F b => exact encodeFrame_err (step_encode hcall ▸ ht) hk
  | decode b n =>
    rcases step_decode hcall with ⟨e, _⟩ | ⟨e, _⟩ | ⟨_, _, e⟩ <;> rw [e] at ht <;> cases ht
    have herr := (commandResult_eq_err_iff _ _).1 (Option.some.inj hk)
    cases n with
    | zero =>
      cases herr
      simp
    | succ n =>
      exact ⟨nofun, fun _ => decodeCommand_noOperand_err herr, fun _ => decodeCommand_bitrate_err herr,
        fun _ => decodeCommand_flag_err herr, fun _ => decodeCommand_transmit_err herr,
        fun _ => decodeCommand_unknown_err herr⟩
/-! ## The body that a line spells -/

/-- The nibbles that the digits at indices 1 to `n`-1 of a line spell (R92). -/
def lineBody (n : Nat) (line : Nat → Byte) : List Nibble :=
  (List.range (n - 1)).map fun k => BitVec.ofNat 4 (digitValue (line (k + 1)))

@[simp] theorem lineBody_length (n : Nat) (line : Nat → Byte) : (lineBody n line).length = n - 1 := by
  simp [lineBody]

theorem lineBody_eq_nil_iff (n : Nat) (line : Nat → Byte) : lineBody n line = [] ↔ n ≤ 1 := by
  rw [← List.length_eq_zero_iff, lineBody_length]
  omega

theorem digitValue_lt {c : Byte} (h : HexDigit c) : digitValue c < 16 := by
  obtain ⟨v, -, hv⟩ := hex2nib_of_hexDigit h
  exact hv ▸ v.isLt

theorem bodyAt_lineBody {n k : Nat} {line : Nat → Byte} (h : BodyIsHex n line) (hk : k + 1 < n) :
    (bodyAt (lineBody n line) k).toNat = digitValue (line (k + 1)) := by
  have hlt := digitValue_lt (h (k + 1) (by omega) hk)
  have hrange : k < n - 1 := by omega
  simp [bodyAt, lineBody, hrange, Nat.mod_eq_of_lt hlt]

/-- The identifier of the body is the number its digits spell on the line (R54). -/
theorem assembleId_take_lineBody {n w : Nat} {line : Nat → Byte} (h : BodyIsHex n line) (hw : w ≤ n - 1) :
    assembleId ((lineBody n line).take w) = lineId w line := by
  rw [assembleId_take (by rwa [lineBody_length]), idValue, lineId]
  refine congrArg List.sum (List.map_congr_left fun k hk => ?_)
  have hkw := List.mem_range.1 hk
  exact congrArg (· * 16 ^ (w - 1 - k)) (bodyAt_lineBody h (by omega))

theorem Memory.readBytes_one_eq_map (m : Memory) (n : Nat) :
    Memory.readBytes m 1 n = (List.range n).map fun k => Memory.read m (k + 1) :=
  List.ext_getElem (by simp) fun k _ _ => by simp [Nat.add_comm]

/-- Phase 2 of a line of hex digits gives the body that the line spells (R90). -/
theorem hexBody_readBytes {m : Memory} {n : Nat} (h : BodyIsHex n (Memory.read m)) :
    hexBody (Memory.readBytes m 1 (n - 1)) = .ok (lineBody n (Memory.read m)) := by
  have hdigits : ∀ c ∈ Memory.readBytes m 1 (n - 1), HexDigit c := by
    intro c hc
    obtain ⟨a, hlo, hhi, rfl⟩ := Memory.mem_readBytes.1 hc
    exact h a hlo (by omega)
  obtain ⟨body, hbody, hvalues⟩ := hexBody_of_hexDigits hdigits
  have hspelt : body = lineBody n (Memory.read m) :=
    calc body = (body.map (·.toNat)).map (BitVec.ofNat 4) := by simp [Function.comp_def]
      _ = lineBody n (Memory.read m) := by rw [hvalues, Memory.readBytes_one_eq_map]; simp [lineBody]
  rw [hbody, hspelt]

/-! ## Which lines fail, by their bytes -/

theorem bitrateCommand_invalidBitrate_iff (bound : Nat) (body : List Nibble) :
    bitrateCommand bound body = .err .invalidBitrate ↔ 1 ≤ body.length ∧ bound ≤ (bodyAt body 0).toNat := by
  cases body <;> simp [bodyAt]

theorem bitrateCommand_truncated_iff (bound : Nat) (body : List Nibble) :
    bitrateCommand bound body = .err .truncatedInput ↔ body = [] := by
  cases body with
  | nil => simp
  | cons n surplus => rw [bitrateCommand_cons]; split <;> simp

/-- TRANSMIT's three kinds on the body of a line of hex digits, by the bytes of the line (R109). -/
theorem transmit_lineBody_err_iff {f : TransmitForm} (hf : f ∈ transmitForms) {n : Nat} {line : Nat → Byte}
    (h : BodyIsHex n line) :
    (transmit f.kind f.idKind (lineBody n line) = .err .invalidDlc ↔
      f.width + 1 ≤ n - 1 ∧ lineId f.width line ≤ f.max ∧ 8 < digitValue (line (f.width + 1))) ∧
    (transmit f.kind f.idKind (lineBody n line) = .err .identifierOutOfRange ↔
      f.width ≤ n - 1 ∧ f.max < lineId f.width line) ∧
    (transmit f.kind f.idKind (lineBody n line) = .err .truncatedInput ↔
      n - 1 < f.width ∨ (n - 1 = f.width ∧ lineId f.width line ≤ f.max) ∨
        (f.width + 1 ≤ n - 1 ∧ lineId f.width line ≤ f.max ∧ digitValue (line (f.width + 1)) ≤ 8 ∧
          n - 1 < f.width + 1 + 2 * digitValue (line (f.width + 1)))) := by
  obtain ⟨kind, idk, rfl⟩ := transmitForms_spec hf
  have hid := assembleId_take_lineBody (w := idWidth idk) h
  have hdlc := bodyAt_lineBody (k := idWidth idk) h
  have hcases := transmit_cases kind idk (lineBody n line)
  rw [lineBody_length] at hcases
  rcases hcases with ⟨e, _⟩ | ⟨e, _⟩ | ⟨e, _⟩ | ⟨e, _⟩ | ⟨e, _⟩ | ⟨e, _⟩ <;>
    simp only [e, reduceCtorEq, Result.err.injEq, false_iff, true_iff] <;>
    omega

/-- The rows whose command can fail on a body: `S`, the four of a flag, and the four of TRANSMIT (R138). -/
theorem exists_leading_err_iff (c0 : Byte) (bound : Nat) (body : List Nibble) (k : ErrorKind) :
    (∃ mk, leadingByte c0 = some mk ∧ commandOf bound (mk body) = .err k) ↔
      (c0 = charS ∧ bitrateCommand bound body = .err k) ∨
      (c0 ∈ flagBytes ∧ k = .truncatedInput ∧ body = []) ∨
      ∃ f ∈ transmitForms, c0 = f.char ∧ transmit f.kind f.idKind body = .err k := by
  constructor
  · rintro ⟨mk, hm, hk⟩
    rcases mem_leadingBytes_iff.1 (mem_leadingBytes_of_leadingByte hm) with hc | rfl | hc | hc
    · obtain ⟨command, hok⟩ := commandOf_noOperand hm hc bound body
      rw [hok] at hk
      cases hk
    · exact .inl ⟨rfl, commandOf_charS hm bound body ▸ hk⟩
    · obtain ⟨command, hflag⟩ := commandOf_flag hm hc bound body
      exact .inr (.inl ⟨hc, (flagCommand_err_iff command body k).1 (hflag ▸ hk)⟩)
    · obtain ⟨f, hf, rfl⟩ := exists_transmitForm hc
      exact .inr (.inr ⟨f, hf, rfl, commandOf_transmitForm hf hm bound body ▸ hk⟩)
  · rintro (⟨rfl, hk⟩ | ⟨hc, hk⟩ | ⟨f, hf, rfl, hk⟩)
    · exact ⟨_, leadingByte_charS, hk⟩
    · obtain ⟨mk, hm⟩ := exists_leadingByte (mem_leadingBytes_iff.2 (.inr (.inr (.inl hc))))
      obtain ⟨command, hflag⟩ := commandOf_flag hm hc bound body
      exact ⟨mk, hm, hflag.trans ((flagCommand_err_iff command body k).2 hk)⟩
    · obtain ⟨kind, idk, rfl⟩ := transmitForms_spec hf
      exact ⟨_, leadingByte_typeChar kind idk, (commandOf_transmitRow bound kind idk body).trans hk⟩

section
variable (bound : Nat) (m : Memory) (n : Nat)

/-- A kind that the common part does not raise: the empty line, or a recognised line of hex digits whose command fails
(R139). -/
theorem decodeCommand_readBytes_err_iff {k : ErrorKind} (hunknown : k ≠ .unknownCommand)
    (hinvalid : k ≠ .invalidCharacter) :
    decodeCommand bound (Memory.readBytes m 0 n) = .err k ↔ (n = 0 ∧ k = .truncatedInput) ∨
      (1 ≤ n ∧ BodyIsHex n (Memory.read m) ∧ ∃ mk, leadingByte (Memory.read m 0) = some mk ∧
        commandOf bound (mk (lineBody n (Memory.read m))) = .err k) := by
  cases n with
  | zero => simp [Memory.readBytes, decodeCommand, decodeLine, eq_comm]
  | succ n =>
    cases hm : leadingByte (Memory.read m 0) with
    | none =>
      rw [Memory.readBytes, decodeCommand_unknown ((leadingByte_none_iff_notMem _).1 hm)]
      simp [hunknown.symm]
    | some mk =>
      by_cases hhex : BodyIsHex (n + 1) (Memory.read m)
      · have hline : decodeLine (Memory.readBytes m 0 (n + 1)) = .ok (mk (lineBody (n + 1) (Memory.read m))) :=
          decodeLine_of_body hm (hexBody_readBytes hhex)
        simp [decodeCommand, hline, hhex]
      · have hbad : decodeLine (Memory.readBytes m 0 (n + 1)) = .err .invalidCharacter := by
          rw [decodeLine_readBytes_invalid_iff]
          refine ⟨by omega, mem_leadingBytes_of_leadingByte hm, ?_⟩
          simpa [BodyIsHex] using hhex
        simp [decodeCommand, hbad, hhex, hinvalid.symm]

theorem decodeCommand_invalidBitrate_iff :
    decodeCommand bound (Memory.readBytes m 0 n) = .err .invalidBitrate ↔
      2 ≤ n ∧ Memory.read m 0 = charS ∧ BodyIsHex n (Memory.read m) ∧ bound ≤ digitValue (Memory.read m 1) := by
  rw [decodeCommand_readBytes_err_iff bound m n (by decide) (by decide), exists_leading_err_iff,
    bitrateCommand_invalidBitrate_iff, lineBody_length]
  constructor
  · rintro (⟨_, hk⟩ | ⟨hn, hhex, ⟨hc, hlen, hle⟩ | ⟨_, hk, _⟩ | ⟨f, _, _, hk⟩⟩)
    · cases hk
    · exact ⟨by omega, hc, hhex, bodyAt_lineBody hhex (k := 0) (by omega) ▸ hle⟩
    · cases hk
    · exact absurd (transmit_err hk) (by decide)
  · rintro ⟨hn, hc, hhex, hle⟩
    exact .inr ⟨by omega, hhex, .inl ⟨hc, by omega, (bodyAt_lineBody hhex (k := 0) (by omega)).symm ▸ hle⟩⟩

/-- The two kinds of DECODE that only TRANSMIT raises (R135, R137). -/
theorem decodeCommand_transmit_err_iff {k : ErrorKind} (hk : k = .invalidDlc ∨ k = .identifierOutOfRange) :
    decodeCommand bound (Memory.readBytes m 0 n) = .err k ↔
      1 ≤ n ∧ BodyIsHex n (Memory.read m) ∧ ∃ f ∈ transmitForms, Memory.read m 0 = f.char ∧
        transmit f.kind f.idKind (lineBody n (Memory.read m)) = .err k := by
  have htrunc : k ≠ .truncatedInput := by rcases hk with rfl | rfl <;> decide
  have hbitrate : bitrateCommand bound (lineBody n (Memory.read m)) ≠ .err k := by
    intro h
    rcases hk with rfl | rfl <;> exact absurd (bitrateCommand_err h) (by decide)
  rw [decodeCommand_readBytes_err_iff bound m n (by rcases hk with rfl | rfl <;> decide)
    (by rcases hk with rfl | rfl <;> decide), exists_leading_err_iff]
  simp only [htrunc, hbitrate, false_and, and_false, false_or]

theorem decodeCommand_invalidDlc_iff :
    decodeCommand bound (Memory.readBytes m 0 n) = .err .invalidDlc ↔
      ∃ f ∈ transmitForms, f.width + 2 ≤ n ∧ Memory.read m 0 = f.char ∧ BodyIsHex n (Memory.read m) ∧
        lineId f.width (Memory.read m) ≤ f.max ∧ 8 < digitValue (Memory.read m (f.width + 1)) := by
  rw [decodeCommand_transmit_err_iff bound m n (.inl rfl)]
  constructor
  · rintro ⟨hn, hhex, f, hf, hc, hk⟩
    obtain ⟨hiff, -, -⟩ := transmit_lineBody_err_iff hf hhex
    obtain ⟨hlen, hid, hdlc⟩ := hiff.1 hk
    exact ⟨f, hf, by omega, hc, hhex, hid, hdlc⟩
  · rintro ⟨f, hf, hn, hc, hhex, hid, hdlc⟩
    obtain ⟨hiff, -, -⟩ := transmit_lineBody_err_iff hf hhex
    exact ⟨by omega, hhex, f, hf, hc, hiff.2 ⟨by omega, hid, hdlc⟩⟩

theorem decodeCommand_identifierOutOfRange_iff :
    decodeCommand bound (Memory.readBytes m 0 n) = .err .identifierOutOfRange ↔
      ∃ f ∈ transmitForms, f.width + 1 ≤ n ∧ Memory.read m 0 = f.char ∧ BodyIsHex n (Memory.read m) ∧
        f.max < lineId f.width (Memory.read m) := by
  rw [decodeCommand_transmit_err_iff bound m n (.inr rfl)]
  constructor
  · rintro ⟨hn, hhex, f, hf, hc, hk⟩
    obtain ⟨-, hiff, -⟩ := transmit_lineBody_err_iff hf hhex
    obtain ⟨hlen, hid⟩ := hiff.1 hk
    exact ⟨f, hf, by omega, hc, hhex, hid⟩
  · rintro ⟨f, hf, hn, hc, hhex, hid⟩
    obtain ⟨-, hiff, -⟩ := transmit_lineBody_err_iff hf hhex
    exact ⟨by omega, hhex, f, hf, hc, hiff.2 ⟨by omega, hid⟩⟩

theorem decodeCommand_truncatedInput_iff :
    decodeCommand bound (Memory.readBytes m 0 n) = .err .truncatedInput ↔
      n = 0 ∨
      (n = 1 ∧ Memory.read m 0 ∈ charS :: flagBytes) ∨
      ∃ f ∈ transmitForms, 1 ≤ n ∧ Memory.read m 0 = f.char ∧ BodyIsHex n (Memory.read m) ∧
        (n - 1 < f.width ∨ (n - 1 = f.width ∧ lineId f.width (Memory.read m) ≤ f.max) ∨
          (f.width + 1 ≤ n - 1 ∧ lineId f.width (Memory.read m) ≤ f.max ∧
            digitValue (Memory.read m (f.width + 1)) ≤ 8 ∧
            n - 1 < f.width + 1 + 2 * digitValue (Memory.read m (f.width + 1)))) := by
  rw [decodeCommand_readBytes_err_iff bound m n (by decide) (by decide), exists_leading_err_iff,
    bitrateCommand_truncated_iff, lineBody_eq_nil_iff]
  constructor
  · rintro (⟨hn, _⟩ | ⟨hn, hhex, ⟨hc, hlen⟩ | ⟨hc, _, hlen⟩ | ⟨f, hf, hc, hk⟩⟩)
    · exact .inl hn
    · exact .inr (.inl ⟨by omega, List.mem_cons.2 (.inl hc)⟩)
    · exact .inr (.inl ⟨by omega, List.mem_cons_of_mem _ hc⟩)
    · obtain ⟨-, -, hiff⟩ := transmit_lineBody_err_iff hf hhex
      exact .inr (.inr ⟨f, hf, hn, hc, hhex, hiff.1 hk⟩)
  · rintro (hn | ⟨rfl, hc⟩ | ⟨f, hf, hn, hc, hhex, hk⟩)
    · exact .inl ⟨hn, rfl⟩
    · have hhex : BodyIsHex 1 (Memory.read m) := fun k hlo hhi => by omega
      rcases List.mem_cons.1 hc with hc | hc
      · exact .inr ⟨le_rfl, hhex, .inl ⟨hc, le_rfl⟩⟩
      · exact .inr ⟨le_rfl, hhex, .inr (.inl ⟨hc, rfl, le_rfl⟩)⟩
    · obtain ⟨-, -, hiff⟩ := transmit_lineBody_err_iff hf hhex
      exact .inr ⟨hn, hhex, .inr (.inr ⟨f, hf, hc, hiff.2 hk⟩)⟩

end

/-! ## The remaining kinds by call -/

theorem freshDecode_err_iff {s : State} {b : Buffer} {n : Nat} {rest : List Call} (h : FreshDecode s b n rest) :
    ∃ t, step s = .next t ∧ ∀ k, t.result = some (.err k) ↔
      decodeCommand s.params.canBitrateInvalid (Memory.readBytes b.bytes 0 n) = .err k := by
  refine ⟨_, step_freshDecode h, fun k => ?_⟩
  simp only [Option.some.injEq, commandResult_eq_err_iff]

theorem freshEncode_err_iff {s : State} {F : CanFrame} {b : Buffer} {rest : List Call} (h : FreshEncode s F b rest) :
    ∃ t, step s = .next t ∧ ∀ k, t.result = some (.err k) ↔ frameError F = some k := by
  rw [step_encode h.call]
  cases he : frameError F with
  | some e => exact ⟨_, encodeFrame_of_error h.owned h.room he, fun k => by simp [State.raise]⟩
  | none => exact ⟨_, encodeFrame_of_no_error h.owned h.room he, fun k => by simp⟩

/-- The two kinds that the validations of ENCODE name (R71, R72), and no other. -/
theorem frameError_iff (F : CanFrame) :
    (frameError F = some .identifierOutOfRange ↔ idMax F.idKind < F.id.toNat) ∧
    (frameError F = some .invalidDlc ↔ F.id.toNat ≤ idMax F.idKind ∧ 8 < F.dlc.toNat) ∧
    frameError F ≠ some .invalidBitrate ∧ frameError F ≠ some .truncatedInput := by
  rcases frameError_cases F with ⟨e, hid⟩ | ⟨e, hid, hdlc⟩ | ⟨e, hid, hdlc⟩
  · simp [e, hid]
  · simp [e, hid, hdlc]
  · simp [e, hid, hdlc]

theorem idMax_eq_ite (idk : IdKind) : idMax idk = if idk = .standard then 0x7FF else 0x1FFFFFFF := by
  cases idk <;> rfl

/-- Settles O12: DECODE by the bytes of its line, ENCODE by its two validations, and the conversions by the one kind of
HEX2NIB. -/
theorem remainingErrorKindsExactly : Obligations.RemainingErrorKindsExactly := by
  refine ⟨fun s b n rest h => ?_, fun s F b rest h => ?_, fun s t c rest k hcall hc ht hk => ?_⟩
  · obtain ⟨t, ht, hiff⟩ := freshDecode_err_iff h
    exact ⟨t, ht, (hiff _).trans (decodeCommand_invalidBitrate_iff ..), (hiff _).trans (decodeCommand_invalidDlc_iff ..),
      (hiff _).trans (decodeCommand_truncatedInput_iff ..), (hiff _).trans (decodeCommand_identifierOutOfRange_iff ..)⟩
  · obtain ⟨t, ht, hiff⟩ := freshEncode_err_iff h
    simp only [← idMax_eq_ite]
    exact ⟨t, ht, by simpa only [ne_eq, hiff] using frameError_iff F⟩
  · rcases hc with ⟨v, rfl⟩ | ⟨x, rfl⟩
    · exact absurd hk (step_nib2hex_ne_err hcall ht k)
    · exact step_hex2nib_err hcall ht hk

end Sys2Proof.Machine
end
